-- ==== Sys2Proof/Word.lean ====
section
/-! DEFINITION. The machine's word types (00_scope.md R6, R8): every value is unsigned. -/

namespace Sys2Proof

/-- An 8-bit value: a general register, a memory byte, a timer, a framebuffer byte (`XLEN`, R6). -/
abbrev Byte := BitVec 8

/-- A 16-bit value: PC, I, a stack entry (`ALEN`) or an instruction word (`ILEN`) (R6). -/
abbrev Word := BitVec 16

/-- A general register number, 0 to 15 (R20). -/
abbrev Reg := Fin 16

/-- A key number, 0 to 15 (R31). -/
abbrev Key := Fin 16

end Sys2Proof
end

