-- ==== Sys2Proof/Config.lean ====
section
/-! DEFINITION. What an implementation fixes (the OPEN parameters of 00_scope.md R6) and the machine's one free
value, the random byte. The numbers themselves stand in Sys2Proof/Machine/Parameters.lean. -/

namespace Sys2Proof

/-- The two values a framebuffer byte takes, `PIX_OFF` and `PIX_ON` (R6, R32). -/
inductive Config.Pixel where
  /-- 0 -/
  | off
  /-- 255 -/
  | on
  deriving DecidableEq, Repr

/-- The parameters R6 leaves to the implementation. A state carries them (log 4), so a statement over all states
holds for each of their values. -/
structure Config.Params where
  /-- `SCREEN_W`, the framebuffer's width in physical pixels (R6, OPEN). -/
  screenW : Nat
  /-- `SCREEN_H`, the framebuffer's height in physical pixels (R6, OPEN). -/
  screenH : Nat
  /-- `STACK_DEPTH`, how many return addresses the call stack holds (R6, OPEN). -/
  stackDepth : Nat
  /-- `CLS_FILL`, the value 00E0 writes, 0 or 255 (R6, R180). -/
  clsFill : Config.Pixel
  deriving DecidableEq, Repr

/-- FREE VALUE (DESIGN CHOICE, log 5): the `k`-th byte drawn from the `rand` port. Nothing is known of it
(44_random.md R150: "an 8-bit input port"; 92_eei_decisions.md D20). -/
opaque Config.rand8 : Nat → Byte

end Sys2Proof
end

