-- ==== Sys2Proof/Machine/Ports.lean ====
section
/-! DEFINITION. The ports of the block (60_exceptions.md R210): what the host can issue, and what the block puts out. -/

namespace Sys2Proof.Machine

/-- The transactions the host can issue (R210). A key number is 4 bits wide, so no other can be presented (R213). -/
inductive Transaction where
  /-- `Reset` (R240) -/
  | reset
  /-- `Load(rom)` (R241) -/
  | load (rom : List Byte)
  /-- `Load` with the failure mark (R242) -/
  | loadFailed
  /-- `Cycle` (R100) -/
  | cycle
  /-- `Tick` (R211) -/
  | tick
  /-- `Press(k)` (R213) -/
  | press (k : Key)
  /-- `Release(k)` (R214) -/
  | release (k : Key)
  /-- `FbRead(x, y)` (R215) -/
  | fbRead (x y : Nat)
  deriving DecidableEq, Repr

/-- The transactions a run can begin with (R244). -/
def Transaction.beginsRun : Transaction → Bool
  | .reset | .load _ | .loadFailed => true
  | .cycle | .tick | .press _ | .release _ | .fbRead _ _ => false

/-- What the output ports give (R210); the level `fault` is the state's own latch (R202). -/
inductive OutEvent where
  /-- one pulse on `beep` (R212) -/
  | beep
  /-- the result `load_ok` of a `Load` (R241, R242) -/
  | loadOk (ok : Bool)
  /-- the byte `FbRead` returns (R215) -/
  | fbByte (b : Byte)
  deriving DecidableEq, Repr

end Sys2Proof.Machine
end

