-- ==== Sys2Proof/WellFormed.lean ====
section
/-! DEFINITION. What a well-formed instruction and a well-formed transaction are. -/

namespace Sys2Proof

/-- Every term of `Instr` is well formed: R82 says every value of every operand field is valid ("opcode operands are
always masked to valid nibble ranges by construction"), and the fields' types admit no other value. So no statement
of this package carries this check as a hypothesis. -/
def Instr.wellFormed (_ : Instr) : Bool := true

/-- A transaction that can be presented: `FbRead` only inside the screen (R215); a key number is a `Fin 16`, so
`Press` and `Release` always (R213, R214). -/
def Machine.Transaction.wellFormed (p : Config.Params) : Machine.Transaction → Bool
  | .fbRead x y => decide (x < p.screenW) && decide (y < p.screenH)
  | _ => true

end Sys2Proof
end

