-- ==== Sys2Proof/Decode.lean ====
section
/-! DEFINITION. The decoder, total on every word and every byte list (30_encoding.md R80 to R90), the encoder, and the
opcode map R86 as mask and match. -/

namespace Sys2Proof

/-- Why the decoder gives no instruction. -/
inductive DecodeReject where
  /-- the word matches no row of R86; the cycle makes it a no-op (R88, R103) -/
  | unknownWord (w : Word)
  /-- fewer than two bytes (R80: every instruction is two bytes) -/
  | truncated
  deriving DecidableEq, Repr

/-! ## Fields (R81) -/

/-- Nibble `k` of a word, nibble 0 the least significant. -/
def nibble (w : Word) (k : Nat) : BitVec 4 := w.extractLsb' (4 * k) 4

/-- `nn`, the low byte (R81). -/
def fieldNN (w : Word) : Byte := w.extractLsb' 0 8

/-- `nnn`, the low 12 bits (R81). -/
def fieldNNN (w : Word) : BitVec 12 := w.extractLsb' 0 12

/-- A nibble used as a register number; every value is a register (R82). -/
def regOf (b : BitVec 4) : Reg := ⟨b.toNat, b.isLt⟩

/-- A register number as a nibble. -/
def regBits (r : Reg) : BitVec 4 := BitVec.ofNat 4 r.val

/-! ## Decoder (R84, R85) -/

/-- The sub-dispatch of family 8 on the low nibble (R84). -/
def decodeFamily8 (w : Word) (x y : Reg) : Except DecodeReject Instr :=
  match (nibble w 0).toNat with
  | 0x0 => .ok (.ldReg x y)
  | 0x1 => .ok (.orReg x y)
  | 0x2 => .ok (.andReg x y)
  | 0x3 => .ok (.xorReg x y)
  | 0x4 => .ok (.addReg x y)
  | 0x5 => .ok (.sub x y)
  | 0x6 => .ok (.shr x y)
  | 0x7 => .ok (.subn x y)
  | 0xE => .ok (.shl x y)
  | _ => .error (.unknownWord w)

/-- The sub-dispatch of family F on the low byte (R84). -/
def decodeFamilyF (w : Word) (x : Reg) : Except DecodeReject Instr :=
  match (fieldNN w).toNat with
  | 0x07 => .ok (.ldVxDt x)
  | 0x0A => .ok (.ldVxK x)
  | 0x15 => .ok (.ldDtVx x)
  | 0x18 => .ok (.ldStVx x)
  | 0x1E => .ok (.addI x)
  | 0x29 => .ok (.ldF x)
  | 0x33 => .ok (.ldB x)
  | 0x55 => .ok (.storeRegs x)
  | 0x65 => .ok (.loadRegs x)
  | _ => .error (.unknownWord w)

/-- The instruction a word selects: dispatch on the family, then on the further fixed bits (R84), each checked
strictly (R85); a word that matches none is rejected by name (R88, log 12). -/
def decode (w : Word) : Except DecodeReject Instr :=
  let x := regOf (nibble w 2)
  let y := regOf (nibble w 1)
  match (nibble w 3).toNat with
  | 0x0 =>
    match (fieldNNN w).toNat with
    | 0x0E0 => .ok .cls
    | 0x0EE => .ok .ret
    | _ => .error (.unknownWord w)
  | 0x1 => .ok (.jp (fieldNNN w))
  | 0x2 => .ok (.call (fieldNNN w))
  | 0x3 => .ok (.seImm x (fieldNN w))
  | 0x4 => .ok (.sneImm x (fieldNN w))
  | 0x5 => if nibble w 0 = 0 then .ok (.seReg x y) else .error (.unknownWord w)
  | 0x6 => .ok (.ldImm x (fieldNN w))
  | 0x7 => .ok (.addImm x (fieldNN w))
  | 0x8 => decodeFamily8 w x y
  | 0x9 => if nibble w 0 = 0 then .ok (.sneReg x y) else .error (.unknownWord w)
  | 0xA => .ok (.ldI (fieldNNN w))
  | 0xB => .ok (.jpV0 (fieldNNN w))
  | 0xC => .ok (.rnd x (fieldNN w))
  | 0xD => .ok (.drw x y (nibble w 0))
  | 0xE =>
    match (fieldNN w).toNat with
    | 0x9E => .ok (.skp x)
    | 0xA1 => .ok (.sknp x)
    | _ => .error (.unknownWord w)
  | 0xF => decodeFamilyF w x
  | _ => .error (.unknownWord w)

/-- The word stored in two consecutive bytes, the high byte first (R53, R80). -/
def wordOfBytes (hi lo : Byte) : Word := hi ++ lo

/-- Decode the first instruction of a byte list; the rest of the list comes back with it. -/
def decodeBytes : List Byte → Except DecodeReject (Instr × List Byte)
  | hi :: lo :: rest =>
    match decode (wordOfBytes hi lo) with
    | .ok i => .ok (i, rest)
    | .error e => .error e
  | _ => .error .truncated

/-! ## Encoder (R83, R86) -/

/-- Format `NNN`: family, then 12 bits (R83). -/
def wordNNN (f : BitVec 4) (nnn : BitVec 12) : Word := f ++ nnn

/-- Formats `XNN` and `X`: family, register, low byte (R83). -/
def wordXNN (f : BitVec 4) (x : Reg) (nn : Byte) : Word := f ++ regBits x ++ nn

/-- Formats `XY` and `XYN`: family, two registers, low nibble (R83). -/
def wordXYN (f : BitVec 4) (x y : Reg) (n : BitVec 4) : Word := f ++ regBits x ++ regBits y ++ n

/-- The word of an instruction, pattern by pattern (R86). -/
def encode : Instr → Word
  | .cls => 0x00E0
  | .ret => 0x00EE
  | .jp nnn => wordNNN 0x1 nnn
  | .call nnn => wordNNN 0x2 nnn
  | .seImm x nn => wordXNN 0x3 x nn
  | .sneImm x nn => wordXNN 0x4 x nn
  | .seReg x y => wordXYN 0x5 x y 0x0
  | .ldImm x nn => wordXNN 0x6 x nn
  | .addImm x nn => wordXNN 0x7 x nn
  | .ldReg x y => wordXYN 0x8 x y 0x0
  | .orReg x y => wordXYN 0x8 x y 0x1
  | .andReg x y => wordXYN 0x8 x y 0x2
  | .xorReg x y => wordXYN 0x8 x y 0x3
  | .addReg x y => wordXYN 0x8 x y 0x4
  | .sub x y => wordXYN 0x8 x y 0x5
  | .shr x y => wordXYN 0x8 x y 0x6
  | .subn x y => wordXYN 0x8 x y 0x7
  | .shl x y => wordXYN 0x8 x y 0xE
  | .sneReg x y => wordXYN 0x9 x y 0x0
  | .ldI nnn => wordNNN 0xA nnn
  | .jpV0 nnn => wordNNN 0xB nnn
  | .rnd x nn => wordXNN 0xC x nn
  | .drw x y n => wordXYN 0xD x y n
  | .skp x => wordXNN 0xE x 0x9E
  | .sknp x => wordXNN 0xE x 0xA1
  | .ldVxDt x => wordXNN 0xF x 0x07
  | .ldVxK x => wordXNN 0xF x 0x0A
  | .ldDtVx x => wordXNN 0xF x 0x15
  | .ldStVx x => wordXNN 0xF x 0x18
  | .addI x => wordXNN 0xF x 0x1E
  | .ldF x => wordXNN 0xF x 0x29
  | .ldB x => wordXNN 0xF x 0x33
  | .storeRegs x => wordXNN 0xF x 0x55
  | .loadRegs x => wordXNN 0xF x 0x65

/-- The two bytes of an instruction as memory holds them (R53, R80). -/
def encodeBytes (i : Instr) : List Byte := [(encode i).extractLsb' 8 8, (encode i).extractLsb' 0 8]

/-! ## The opcode map (R86) -/

/-- A row of the opcode map: a word is the row's when `w &&& mask = bits` (R85). -/
structure OpRow where
  mnemonic : String
  mask : Word
  bits : Word
  deriving DecidableEq, Repr

/-- The row of R86 an instruction stands in. -/
def rowOf : Instr → OpRow
  | .cls => ⟨"CLS", 0xFFFF, 0x00E0⟩
  | .ret => ⟨"RET", 0xFFFF, 0x00EE⟩
  | .jp _ => ⟨"JP_nnn", 0xF000, 0x1000⟩
  | .call _ => ⟨"CALL_nnn", 0xF000, 0x2000⟩
  | .seImm _ _ => ⟨"SE_Vx__nn", 0xF000, 0x3000⟩
  | .sneImm _ _ => ⟨"SNE_Vx__nn", 0xF000, 0x4000⟩
  | .seReg _ _ => ⟨"SE_Vx__Vy", 0xF00F, 0x5000⟩
  | .ldImm _ _ => ⟨"LD_Vx__nn", 0xF000, 0x6000⟩
  | .addImm _ _ => ⟨"ADD_Vx__nn", 0xF000, 0x7000⟩
  | .ldReg _ _ => ⟨"LD_Vx__Vy", 0xF00F, 0x8000⟩
  | .orReg _ _ => ⟨"OR_Vx__Vy", 0xF00F, 0x8001⟩
  | .andReg _ _ => ⟨"AND_Vx__Vy", 0xF00F, 0x8002⟩
  | .xorReg _ _ => ⟨"XOR_Vx__Vy", 0xF00F, 0x8003⟩
  | .addReg _ _ => ⟨"ADD_Vx__Vy", 0xF00F, 0x8004⟩
  | .sub _ _ => ⟨"SUB_Vx__Vy", 0xF00F, 0x8005⟩
  | .shr _ _ => ⟨"SHR_Vx", 0xF00F, 0x8006⟩
  | .subn _ _ => ⟨"SUBN_Vx__Vy", 0xF00F, 0x8007⟩
  | .shl _ _ => ⟨"SHL_Vx", 0xF00F, 0x800E⟩
  | .sneReg _ _ => ⟨"SNE_Vx__Vy", 0xF00F, 0x9000⟩
  | .ldI _ => ⟨"LD_I__nnn", 0xF000, 0xA000⟩
  | .jpV0 _ => ⟨"JP_V0__nnn", 0xF000, 0xB000⟩
  | .rnd _ _ => ⟨"RND_Vx__nn", 0xF000, 0xC000⟩
  | .drw _ _ _ => ⟨"DRW_Vx__Vy__n", 0xF000, 0xD000⟩
  | .skp _ => ⟨"SKP_Vx", 0xF0FF, 0xE09E⟩
  | .sknp _ => ⟨"SKNP_Vx", 0xF0FF, 0xE0A1⟩
  | .ldVxDt _ => ⟨"LD_Vx__DT", 0xF0FF, 0xF007⟩
  | .ldVxK _ => ⟨"LD_Vx__K", 0xF0FF, 0xF00A⟩
  | .ldDtVx _ => ⟨"LD_DT__Vx", 0xF0FF, 0xF015⟩
  | .ldStVx _ => ⟨"LD_ST__Vx", 0xF0FF, 0xF018⟩
  | .addI _ => ⟨"ADD_I__Vx", 0xF0FF, 0xF01E⟩
  | .ldF _ => ⟨"LD_F__Vx", 0xF0FF, 0xF029⟩
  | .ldB _ => ⟨"LD_B__Vx", 0xF0FF, 0xF033⟩
  | .storeRegs _ => ⟨"LD__I___Vx", 0xF0FF, 0xF055⟩
  | .loadRegs _ => ⟨"LD_Vx___I", 0xF0FF, 0xF065⟩

/-- The 34 rows, in the order of R86. -/
def opTable : List OpRow :=
  [rowOf .cls, rowOf .ret, rowOf (.jp 0), rowOf (.call 0), rowOf (.seImm 0 0), rowOf (.sneImm 0 0),
    rowOf (.seReg 0 0), rowOf (.ldImm 0 0), rowOf (.addImm 0 0), rowOf (.ldReg 0 0), rowOf (.orReg 0 0),
    rowOf (.andReg 0 0), rowOf (.xorReg 0 0), rowOf (.addReg 0 0), rowOf (.sub 0 0), rowOf (.shr 0 0),
    rowOf (.subn 0 0), rowOf (.shl 0 0), rowOf (.sneReg 0 0), rowOf (.ldI 0), rowOf (.jpV0 0), rowOf (.rnd 0 0),
    rowOf (.drw 0 0 0), rowOf (.skp 0), rowOf (.sknp 0), rowOf (.ldVxDt 0), rowOf (.ldVxK 0), rowOf (.ldDtVx 0),
    rowOf (.ldStVx 0), rowOf (.addI 0), rowOf (.ldF 0), rowOf (.ldB 0), rowOf (.storeRegs 0), rowOf (.loadRegs 0)]

/-! ## The table's numbering of words -/

/-- The instruction's only word, from a number whose bits above `nbits` are 0. -/
def tableWord (nbits w : Nat) : Word := BitVec.ofNat 16 (w % 2 ^ nbits)

/-- The instruction the decoder reads from the table word `w` of `nbits` bits, laid out in memory order. -/
def decodeTableWord (nbits w : Nat) : Option Instr :=
  match decodeBytes [(tableWord nbits w).extractLsb' 8 8, (tableWord nbits w).extractLsb' 0 8] with
  | .ok (i, _) => some i
  | .error _ => none

end Sys2Proof
end

