-- ==== Sys2Proof/Machine/Cells.lean ====
section
/-! DEFINITION. Sparse stores: a list of (key, value) pairs by rising key, where an unlisted key reads as a background
value and no pair holds it. Main memory and the framebuffer's rows are held so (logs 8 and 10). -/

namespace Sys2Proof.Machine

variable {α : Type}

/-- The value at a key: the search ends at the first key that is not less. -/
def Cells.read (bg : α) : List (Nat × α) → Nat → α
  | [], _ => bg
  | (a, v) :: rest, k => if a < k then Cells.read bg rest k else if a = k then v else bg

/-- A pair before a store, left out when it holds the background value. -/
def Cells.put [DecidableEq α] (bg : α) (k : Nat) (v : α) (l : List (Nat × α)) : List (Nat × α) :=
  if v = bg then l else (k, v) :: l

/-- Write a value at a key; writing the background value unlists the key. -/
def Cells.write [DecidableEq α] (bg : α) : List (Nat × α) → Nat → α → List (Nat × α)
  | [], k, v => Cells.put bg k v []
  | (a, w) :: rest, k, v =>
    if a < k then (a, w) :: Cells.write bg rest k v
    else Cells.put bg k v (((a, w) :: rest).dropWhile (fun p => decide (p.1 ≤ k)))

/-- The canonical form: keys strictly rising, no pair at the background value. -/
abbrev Cells.Wf [DecidableEq α] (bg : α) (l : List (Nat × α)) : Prop :=
  l.Pairwise (fun p q => p.1 < q.1) ∧ ∀ p ∈ l, p.2 ≠ bg

end Sys2Proof.Machine
end

