-- ==== Sys2Proof/Machine/Parameters.lean ====
section
/-! DEFINITION. The numbers of 00_scope.md R6. They stand under Machine/ so that a repair may change one. -/

namespace Sys2Proof

/-- `MEM_SIZE`: valid addresses are 0 to 4094 (R6, R51; 90_conflicts.md C3). -/
def Config.memSize : Nat := 4095

/-- `LOAD_BASE`: the first ROM byte and the reset value of PC (R6, R52). -/
def Config.loadBase : Nat := 0x200

/-- `ROM_MAX`: the largest ROM that loads whole (R6, R241). -/
def Config.romMax : Nat := Config.memSize - Config.loadBase

/-- `SCALE`: the side of the block drawn for one sprite bit (R6, R182). -/
def Config.scale : Nat := 10

/-- `PIX_OFF` (R6, R32). -/
def Config.pixOff : Byte := 0

/-- `PIX_ON` (R6, R32). -/
def Config.pixOn : Byte := 255

/-- The byte of a pixel value (R6, R32). -/
def Config.Pixel.byte : Config.Pixel → Byte
  | .off => Config.pixOff
  | .on => Config.pixOn

/-- `RESET_FB`: the value reset writes to every framebuffer byte (R6, R240; log 23). -/
def Config.resetFb : Config.Pixel := .off

/-- The spec's defaults for the parameters it leaves open (R6, log 4). -/
def Config.defaults : Config.Params :=
  { screenW := 640, screenH := 320, stackDepth := 16, clsFill := .on }

end Sys2Proof
end

