-- ==== Sys2Proof/Machine/State.lean ====
section
/-! DEFINITION. The state of the block (10_state.md R20 to R38) as plain data, its reset value, and the reasons a
step can stop. -/

namespace Sys2Proof.Machine

/-- The causes of R200. Each is an exception whose entry R201 describes, so it ends in a NEXT state (log 1). -/
inductive Cause where
  /-- a fetch outside memory (R204) -/
  | fetchBounds
  /-- FX65 or DXYN reading outside memory (R205) -/
  | readBounds
  /-- FX33 or FX55 writing outside memory (R205) -/
  | writeBounds
  /-- 00EE on an empty stack (R206) -/
  | stackUnderflow
  /-- 2NNN on a full stack (R206) -/
  | stackOverflow
  /-- EX9E or EXA1 with a key index above 15 (R207) -/
  | keyIndex
  deriving DecidableEq, Repr

/-- The fault latch `FAULT` (R34). While `valid` is false the other fields mean nothing (R37, log 7). -/
structure FaultLatch where
  valid : Bool
  cause : BitVec 3
  pc : Word
  opcode : Word
  info : Word
  deriving DecidableEq, Repr

/-- The framebuffer `FB` (R32): for each row number `y` the row's pixels as a number whose bit `x` is 1 when
`FB[y][x]` is 255; a row of zeros is not listed (log 8). Only `Framebuffer.pixel` and the write port's requests (Ops.lean)
know of this form. -/
structure Framebuffer where
  rows : List (Nat × Nat)
  deriving DecidableEq, Repr

/-- The state of the block, with R244's distinction of before and after the first `Reset` or `Load`, and four fields of the model's own (`params`, `draws`, `pending`, `out`). -/
structure State where
  /-- `MEM` (R35, R51): the bytes that are not 0, by rising address -/
  mem : List Host.Cell
  /-- `V[0]` to `V[15]` (R20); `V[15]` is `VF` (R21) -/
  v : Vector Byte 16
  /-- `I` (R25) -/
  i : Word
  /-- `PC` (R22) -/
  pc : Word
  /-- `DT` (R26) -/
  dt : Byte
  /-- `ST` (R27) -/
  st : Byte
  /-- `STACK`, the top entry first (R29, log 9); `SP` is its length -/
  stack : List Word
  /-- `KEY[0]` to `KEY[15]` (R31) -/
  key : Vector Bool 16
  /-- `FB` (R32) -/
  fb : Framebuffer
  /-- `FAULT` (R34) -/
  fault : FaultLatch
  /-- whether a `Reset` or `Load` has been performed since power-on (R244) -/
  started : Bool
  /-- MODEL'S OWN: the parameters of R6 (DESIGN CHOICE, log 4); no step changes them -/
  params : Config.Params
  /-- MODEL'S OWN: how many bytes the `rand` port has given (R150; DESIGN CHOICE, log 5) -/
  draws : Nat
  /-- MODEL'S OWN: the transactions the host issues next, the first one first (R217; DESIGN CHOICE, log 2) -/
  pending : List Transaction
  /-- MODEL'S OWN: what the output ports have given, the latest first (DESIGN CHOICE, log 3) -/
  out : List OutEvent
  deriving DecidableEq, Repr

/-- Reasons to stop with a fault. There is none: every fault of R200 is a next state with the latch set, as R201
describes (log 1), so no step ever answers `Outcome.fault`. -/
inductive Fault where
  deriving DecidableEq, Repr

/-- Reasons to refuse a step. -/
inductive Refusal where
  /-- an instruction without a meaning yet, raised by `exec`'s arm alone (safe); no arm is left that raises it -/
  | notModelled (mnemonic : String)
  /-- raised by `FbRead(x, y)` outside the screen, which R215 says cannot be presented (safe, log 19) -/
  | fbReadOffScreen (x y : Nat)
  /-- raised by every transaction but `Reset` and `Load` before the first of those, where R244 says it has no defined
  result (safe, log 11) -/
  | beforeReset
  deriving DecidableEq, Repr

/-- The state right after reset (R37), with values the model names where the spec gives none (DESIGN CHOICE): all keys
released (log 6), the fault fields but `valid` 0 (log 7), the default parameters (log 4), no byte drawn (log 5), no
transaction pending (log 2), nothing put out (log 3). -/
def State.reset : State where
  mem := []
  v := Vector.replicate 16 0
  i := 0
  pc := BitVec.ofNat 16 Config.loadBase
  dt := 0
  st := 0
  stack := []
  key := Vector.replicate 16 false
  fb := { rows := [] }
  fault := { valid := false, cause := 0, pc := 0, opcode := 0, info := 0 }
  started := true
  params := Config.defaults
  draws := 0
  pending := []
  out := []

end Sys2Proof.Machine
end

