-- ==== Sys2Proof/Machine/Ops.lean ====
section
/-! DEFINITION. The named operations over registers, memory, stack and framebuffer, and taking a fault. -/

namespace Sys2Proof.Machine

/-! ## Registers (R9, R20, R21) -/

/-- `V[x]`. -/
def State.readReg (s : State) (x : Reg) : Byte := s.v[x.val]

/-- `V[x] <- b`. -/
def State.setReg (s : State) (x : Reg) (b : Byte) : State := { s with v := s.v.set x.val b }

/-- `VF`, register 15 (R21). -/
def regVF : Reg := 15

/-- The sixteen register numbers, ascending. -/
def allRegs : List Reg := [0, 1, 2, 3, 4, 5, 6, 7, 8, 9, 10, 11, 12, 13, 14, 15]

/-- `KEY[k]`. -/
def State.keyHeld (s : State) (k : Key) : Bool := s.key[k.val]

/-- `KEY[k] <- b`. -/
def State.setKey (s : State) (k : Key) (b : Bool) : State := { s with key := s.key.set k.val b }

/-- The advance of PC that every cycle makes before its handler runs (R101). -/
def State.advance (s : State) : State := { s with pc := s.pc + 2 }

/-! ## Main memory (R51, R56, R57) -/

/-- Main memory: bytes by rising address, 0 where nothing is listed, the reset contents (R37, log 10). -/
abbrev Memory := List Host.Cell

/-- `MEM[a]`. -/
def Memory.read (m : Memory) (a : Nat) : Byte := Cells.read 0 m a

/-- `MEM[a] <- b`. -/
def Memory.write (m : Memory) (a : Nat) (b : Byte) : Memory := Cells.write 0 m a b

/-- Memory's canonical form; only valid addresses are listed. -/
abbrev Memory.wf (m : Memory) : Prop := Cells.Wf (0 : Byte) m ∧ ∀ p ∈ m, p.1 < Config.memSize

/-- Bytes written to rising addresses from `a`. -/
def Memory.writeBlock : Memory → Nat → List Byte → Memory
  | m, _, [] => m
  | m, a, b :: rest => Memory.writeBlock (m.write a b) (a + 1) rest

/-- `n` bytes read from rising addresses from `a`. -/
def Memory.readBlock (m : Memory) (a n : Nat) : List Byte := (List.range n).map (fun k => m.read (a + k))

/-- `MEM[a]` of a state. -/
def State.readByte (s : State) (a : Nat) : Byte := Memory.read s.mem a

/-- `MemRead(pc, 2)`, the instruction fetch, big-endian (R53, R56); `none` is `FetchBounds`. -/
def State.fetch (s : State) : Option Word :=
  if s.pc.toNat + 1 < Config.memSize then
    some (wordOfBytes (s.readByte s.pc.toNat) (s.readByte (s.pc.toNat + 1)))
  else none

/-- Whether a block of `len` bytes at `base` lies in memory; an empty block always does (R181, R205). -/
def blockOk (base len : Nat) : Bool := len == 0 || decide (base + len ≤ Config.memSize)

/-- The lowest address of a block at `base` that is not a valid address (R161, R200). -/
def lowestBad (base : Nat) : Nat := max base Config.memSize

/-! ## Taking a fault (R200, R201)

There is no return beside it: R209 says no instruction returns from a fault, and only `Reset` or `Load` clears the
latch (`State.doReset` in HostPort.lean). -/

/-- The code of a cause (R200). -/
def Cause.code : Cause → BitVec 3
  | .fetchBounds => 1
  | .readBounds => 2
  | .writeBounds => 3
  | .stackUnderflow => 4
  | .stackOverflow => 5
  | .keyIndex => 6

/-- `raise`: `s` is the state when the cycle began, so nothing of the cycle is committed and PC is `pc0`; then the
latch takes the cause, `pc0`, the fetched word and the information (R201). -/
def State.raise (s : State) (c : Cause) (info opcode : Word) : State :=
  { s with fault := { valid := true, cause := c.code, pc := s.pc, opcode := opcode, info := info } }

/-- Run `done` if the block lies in memory, else raise `c` with the lowest bad address (R161). -/
def State.guardBlock (s : State) (c : Cause) (base len : Nat) (opcode : Word) (done : State) : State :=
  if blockOk base len then done else s.raise c (BitVec.ofNat 16 (lowestBad base)) opcode

/-! ## The call stack (R29, R30) -/

/-- `push`: `none` when `SP = STACK_DEPTH` (R30). -/
def State.push (s : State) (w : Word) : Option State :=
  if s.stack.length = s.params.stackDepth then none else some { s with stack := w :: s.stack }

/-- `pop`: `none` when `SP = 0` (R30). -/
def State.pop (s : State) : Option (Word × State) :=
  match s.stack with
  | [] => none
  | w :: rest => some (w, { s with stack := rest })

/-! ## The framebuffer's ports (R32, R183) -/

/-- Row `y` as a number, bit `x` for column `x`. -/
def Framebuffer.rowBits (fb : Framebuffer) (y : Nat) : Nat := Cells.read 0 fb.rows y

/-- The byte of a pixel that is on or off (R32). -/
def pixelByte (on : Bool) : Byte := if on then Config.pixOn else Config.pixOff

/-- `FB[y][x]`, 255 or 0 (R32). -/
def Framebuffer.pixel (fb : Framebuffer) (x y : Nat) : Byte := pixelByte ((fb.rowBits y).testBit x)

/-- The columns `x` to `x + n - 1` of a row, less those a screen `w` wide does not have (R183: clipped one physical
pixel at a time), as a set of bits. -/
def runBits (w x n : Nat) : Nat := (2 ^ min n (w - x) - 1) <<< x

/-- Some of these columns of row `y` are on (R181, the collision). -/
def Framebuffer.anyOn (fb : Framebuffer) (y cols : Nat) : Bool := fb.rowBits y &&& cols != 0

/-- The toggle of these columns of row `y`: `FB[y][x]` exclusive or 255, 0 to 255 and 255 to 0 (R181). -/
def Framebuffer.toggle (fb : Framebuffer) (y cols : Nat) : Framebuffer :=
  { rows := Cells.write 0 fb.rows y (fb.rowBits y ^^^ cols) }

/-- The fill request on a screen of `w` by `h`: every byte takes one value (R183). -/
def Framebuffer.filled (w h : Nat) : Config.Pixel → Framebuffer
  | .off => { rows := [] }
  | .on => { rows := if w = 0 then [] else (List.range h).map (fun y => (y, 2 ^ w - 1)) }

/-- The framebuffer's form on a screen of `w` by `h`: rows by rising number, none of zeros listed, every pixel that is
on inside the screen (R32, R183). -/
abbrev Framebuffer.wf (w h : Nat) (fb : Framebuffer) : Prop :=
  Cells.Wf (0 : Nat) fb.rows ∧ ∀ r ∈ fb.rows, r.1 < h ∧ r.2 < 2 ^ w

end Sys2Proof.Machine
end

