-- ==== Sys2Proof/Machine/Operands.lean ====
section
/-! DEFINITION. The operand forms: registers by field (Ops.lean), immediates and addresses zero-extended (R82), the
implicit `V0` (R113), memory at `I` (45_memory_index.md), keys by the value of a register (R61), and the register
blocks of FX55 and FX65. -/

namespace Sys2Proof.Machine

/-- `nnn` zero-extended to 16 bits (R82). -/
def addrOperand (nnn : BitVec 12) : Word := nnn.setWidth 16

/-- A byte zero-extended to 16 bits (R8, R82). -/
def byteOperand (b : Byte) : Word := b.setWidth 16

/-- The register BNNN reads, always register 0 (R113). -/
def regV0 : Reg := 0

/-- The address `I` as a number; an effective address is the unbounded sum of it and an offset (45_memory_index.md). -/
def State.index (s : State) : Nat := s.i.toNat

/-- How many registers FX55 and FX65 move: `X + 1` (R159, R160). -/
def regCount (x : Reg) : Nat := x.val + 1

/-- The registers `V0` to `VX`, ascending (R159, R160). -/
def regBlock (x : Reg) : List Reg := allRegs.take (regCount x)

/-- `I <- (I + n) mod 65536` (R25, R156, R159, R160). -/
def State.addIndex (s : State) (n : Nat) : State := { s with i := BitVec.ofNat 16 (s.i.toNat + n) }

/-- The key numbered by a register's whole 8-bit value; `none` above 15 (R61, R207). -/
def keyOperand (b : Byte) : Option Key := if h : b.toNat < 16 then some ⟨b.toNat, h⟩ else none

/-- `first_held()`: the lowest held key (R176). -/
def State.firstHeld (s : State) : Option Key := allRegs.find? (fun k => s.keyHeld k)

/-- The decimal digits of a byte, hundreds first (R54, R158). -/
def bcdDigits (b : Byte) : List Byte :=
  [BitVec.ofNat 8 (b.toNat / 100), BitVec.ofNat 8 (b.toNat / 10 % 10), BitVec.ofNat 8 (b.toNat % 10)]

/-- A skip: a further 2 when the condition holds (R23, 42_skip.md). -/
def State.skipIf (s : State) (c : Bool) : State := if c then s.advance.advance else s.advance

end Sys2Proof.Machine
end

