-- ==== Sys2Proof/Machine/Flags.lean ====
section
/-! DEFINITION. The flag computations of R24; the flag is the value 0 or 1 left in `VF` (R21). -/

namespace Sys2Proof.Machine

/-- The byte a flag is written as (R24). -/
def flagByte (c : Bool) : Byte := if c then 1 else 0

/-- Carry of an addition: the sum exceeds 255 (R136). -/
def carryOut (a b : Byte) : Bool := decide (255 < a.toNat + b.toNat)

/-- No borrow of `a - b` (R137, R139). -/
def notBorrow (a b : Byte) : Bool := !decide (a.toNat < b.toNat)

/-- The bit a right shift drops (R138). -/
def shiftedOutRight (a : Byte) : Bool := a.getLsbD 0

/-- The bit a left shift drops (R140). -/
def shiftedOutLeft (a : Byte) : Bool := a.getLsbD 7

/-- `VF <- c`, an ordinary register write (R21). -/
def State.setFlag (s : State) (c : Bool) : State := s.setReg regVF (flagByte c)

/-- The result to `V[x]`, then the flag to `VF`, which stays when `x` is 15 (R24, R141, log 13). -/
def State.setResultFlag (s : State) (x : Reg) (r : Byte) (c : Bool) : State := (s.setReg x r).setFlag c

end Sys2Proof.Machine
end

