-- ==== Sys2Proof/Machine/Alu.lean ====
section
/-! DEFINITION. Register load and arithmetic (43_register_alu.md). Operands are read before anything is written, the
result is reduced modulo 256, the flag is written last (R141). -/

namespace Sys2Proof.Machine

/-- 6XNN: `V[X] <- nn` (R130). -/
def execLdImm (x : Reg) (nn : Byte) (s : State) : Host.Outcome State Fault Refusal :=
  .next (s.advance.setReg x nn)

/-- 7XNN: `V[X] <- (V[X] + nn) mod 256`, no flag (R131). -/
def execAddImm (x : Reg) (nn : Byte) (s : State) : Host.Outcome State Fault Refusal :=
  .next (s.advance.setReg x (s.readReg x + nn))

/-- 8XY0: `V[X] <- V[Y]` (R132). -/
def execLdReg (x y : Reg) (s : State) : Host.Outcome State Fault Refusal :=
  .next (s.advance.setReg x (s.readReg y))

/-- 8XY1: bitwise or, no flag (R133). -/
def execOrReg (x y : Reg) (s : State) : Host.Outcome State Fault Refusal :=
  .next (s.advance.setReg x (s.readReg x ||| s.readReg y))

/-- 8XY2: bitwise and, no flag (R134). -/
def execAndReg (x y : Reg) (s : State) : Host.Outcome State Fault Refusal :=
  .next (s.advance.setReg x (s.readReg x &&& s.readReg y))

/-- 8XY3: bitwise exclusive or, no flag (R135). -/
def execXorReg (x y : Reg) (s : State) : Host.Outcome State Fault Refusal :=
  .next (s.advance.setReg x (s.readReg x ^^^ s.readReg y))

/-- 8XY4: add, `VF` the carry (R136). -/
def execAddReg (x y : Reg) (s : State) : Host.Outcome State Fault Refusal :=
  .next (s.advance.setResultFlag x (s.readReg x + s.readReg y) (carryOut (s.readReg x) (s.readReg y)))

/-- 8XY5: subtract, `VF` is 1 when there is no borrow (R137). -/
def execSub (x y : Reg) (s : State) : Host.Outcome State Fault Refusal :=
  .next (s.advance.setResultFlag x (s.readReg x - s.readReg y) (notBorrow (s.readReg x) (s.readReg y)))

/-- 8XY6: shift `V[X]` right by one, `VF` the bit shifted out; `y` ignored (R138). -/
def execShr (x _y : Reg) (s : State) : Host.Outcome State Fault Refusal :=
  .next (s.advance.setResultFlag x (s.readReg x >>> 1) (shiftedOutRight (s.readReg x)))

/-- 8XY7: reverse subtract, `VF` is 1 when there is no borrow (R139). -/
def execSubn (x y : Reg) (s : State) : Host.Outcome State Fault Refusal :=
  .next (s.advance.setResultFlag x (s.readReg y - s.readReg x) (notBorrow (s.readReg y) (s.readReg x)))

/-- 8XYE: shift `V[X]` left by one, `VF` the bit shifted out; `y` ignored (R140). -/
def execShl (x _y : Reg) (s : State) : Host.Outcome State Fault Refusal :=
  .next (s.advance.setResultFlag x (s.readReg x <<< 1) (shiftedOutLeft (s.readReg x)))

end Sys2Proof.Machine
end

