-- ==== Sys2Proof/Machine/Control.lean ====
section
/-! DEFINITION. Control flow (41_control_flow.md) and the no-op (40_cycle.md R103). Every meaning is given the state in
which the cycle began, makes the advance of R101 itself, and so has that state at hand to raise a fault from. -/

namespace Sys2Proof.Machine

/-- The no-op of a word that matches no instruction: PC advances, nothing else (R88, R103, R105). -/
def execNop (s : State) : Host.Outcome State Fault Refusal := .next s.advance

/-- 1NNN: `PC <- nnn` (R110). -/
def execJp (nnn : BitVec 12) (s : State) : Host.Outcome State Fault Refusal :=
  .next { s.advance with pc := addrOperand nnn }

/-- 2NNN: push the advanced PC, then `PC <- nnn`; `StackOverflow` with the value that was to be pushed (R111, R200). -/
def execCall (nnn : BitVec 12) (s : State) : Host.Outcome State Fault Refusal :=
  match s.advance.push s.advance.pc with
  | some t => .next { t with pc := addrOperand nnn }
  | none => .next (s.raise .stackOverflow s.advance.pc (encode (.call nnn)))

/-- 00EE: `PC <- pop()`; `StackUnderflow` on an empty stack (R112). -/
def execRet (s : State) : Host.Outcome State Fault Refusal :=
  match s.advance.pop with
  | some (w, t) => .next { t with pc := w }
  | none => .next (s.raise .stackUnderflow 0 (encode .ret))

/-- BNNN: `PC <- V0 + nnn`, not masked (R113). -/
def execJpV0 (nnn : BitVec 12) (s : State) : Host.Outcome State Fault Refusal :=
  .next { s.advance with pc := byteOperand (s.readReg regV0) + addrOperand nnn }

end Sys2Proof.Machine
end

