-- ==== Sys2Proof/Machine/Display.lean ====
section
/-! DEFINITION. Display instructions and the framebuffer write port (48_display.md). -/

namespace Sys2Proof.Machine

/-- 00E0: every framebuffer byte becomes `CLS_FILL` (R180). -/
def execCls (s : State) : Host.Outcome State Fault Refusal :=
  .next { s.advance with fb := Framebuffer.filled s.params.screenW s.params.screenH s.params.clsFill }

/-- A drawing in progress: the framebuffer and the collision so far (R181). -/
structure Drawing where
  fb : Framebuffer
  hit : Bool
  deriving DecidableEq, Repr

/-- One row of a block, `SCALE` pixels from column `px`: the pixels inside the screen are toggled, and a collision if one
of them was on; the others are dropped (R181, R183). -/
def drawRun (p : Config.Params) (px py : Nat) (d : Drawing) : Drawing :=
  if py < p.screenH then
    { fb := d.fb.toggle py (runBits p.screenW px Config.scale)
      hit := d.hit || d.fb.anyOn py (runBits p.screenW px Config.scale) }
  else d

/-- The toggle-block request: a `SCALE` by `SCALE` block from `(px, py)` (R183). -/
def drawBlock (p : Config.Params) (px py : Nat) (d : Drawing) : Drawing :=
  (List.range Config.scale).foldl (fun d dy => drawRun p px (py + dy) d) d

/-- One sprite row: a block for each bit that is 1, the most significant bit leftmost (R181). -/
def drawByte (p : Config.Params) (x0 py : Nat) (b : Byte) (d : Drawing) : Drawing :=
  (List.range 8).foldl
    (fun d bit => if b.getLsbD (7 - bit) then drawBlock p (x0 + bit * Config.scale) py d else d) d

/-- The sprite rows, top to bottom (R181). -/
def drawRows (p : Config.Params) (x0 y0 : Nat) : List Byte → Drawing → Drawing
  | [], d => d
  | b :: rest, d => drawRows p x0 (y0 + Config.scale) rest (drawByte p x0 y0 b d)

/-- A sprite drawn from the state's framebuffer, its left upper corner the logical pixel `(col, row)` (R181). -/
def State.drawSprite (s : State) (col row : Byte) (sprite : List Byte) : Drawing :=
  drawRows s.params (col.toNat * Config.scale) (row.toNat * Config.scale) sprite { fb := s.fb, hit := false }

/-- The state after a drawing: the framebuffer, then `VF` the collision, written last (R181). -/
def State.commitDrawing (s : State) (d : Drawing) : State := State.setFlag { s with fb := d.fb } d.hit

/-- DXYN: the `n` sprite rows at `I`, drawn at `(V[X], V[Y])`; `ReadBounds` for a row outside memory (R181). -/
def execDrw (x y : Reg) (n : BitVec 4) (s : State) : Host.Outcome State Fault Refusal :=
  .next (s.guardBlock .readBounds s.index n.toNat (encode (.drw x y n))
    (s.advance.commitDrawing
      (s.drawSprite (s.readReg x) (s.readReg y) (Memory.readBlock s.mem s.index n.toNat))))

end Sys2Proof.Machine
end

