-- ==== Sys2Proof/Machine/Input.lean ====
section
/-! DEFINITION. The input instruction (47_input.md). -/

namespace Sys2Proof.Machine

/-- The rewind of PC that makes a wait (R175). -/
def State.rewind (s : State) : State := { s with pc := s.pc - 2 }

/-- FX0A: the lowest held key to `V[X]`; with none held PC is rewound and the instruction runs again (R175, R176). -/
def execLdVxK (x : Reg) (s : State) : Host.Outcome State Fault Refusal :=
  match s.firstHeld with
  | some k => .next (s.advance.setReg x (BitVec.ofNat 8 k.val))
  | none => .next s.advance.rewind

end Sys2Proof.Machine
end

