-- ==== Sys2Proof/Machine/MemIndex.lean ====
section
/-! DEFINITION. Memory and index instructions (45_memory_index.md). Block accesses check every address before they
change anything (R161). -/

namespace Sys2Proof.Machine

/-- ANNN: `I <- nnn` (R155). -/
def execLdI (nnn : BitVec 12) (s : State) : Host.Outcome State Fault Refusal :=
  .next { s.advance with i := addrOperand nnn }

/-- FX1E: `I <- (I + V[X]) mod 65536`, no flag (R156). -/
def execAddI (x : Reg) (s : State) : Host.Outcome State Fault Refusal :=
  .next (s.advance.addIndex (s.readReg x).toNat)

/-- FX29: `I <- V[X] * 5`, the whole byte (R157). -/
def execLdF (x : Reg) (s : State) : Host.Outcome State Fault Refusal :=
  .next { s.advance with i := BitVec.ofNat 16 ((s.readReg x).toNat * 5) }

/-- FX33: the three decimal digits of `V[X]` at `I`, `I+1`, `I+2`; `I` unchanged (R158). -/
def execLdB (x : Reg) (s : State) : Host.Outcome State Fault Refusal :=
  .next (s.guardBlock .writeBounds s.index 3 (encode (.ldB x))
    { s.advance with mem := Memory.writeBlock s.mem s.index (bcdDigits (s.readReg x)) })

/-- FX55: `V[0]` to `V[X]` to memory from `I`, then `I` moves past them (R159). -/
def execStoreRegs (x : Reg) (s : State) : Host.Outcome State Fault Refusal :=
  .next (s.guardBlock .writeBounds s.index (regCount x) (encode (.storeRegs x))
    (State.addIndex { s.advance with mem := Memory.writeBlock s.mem s.index ((regBlock x).map s.readReg) } (regCount x)))

/-- `V[i] <- MEM[base + i]` for each listed register, in the list's order (R160). -/
def State.loadBlock (s : State) (base : Nat) (rs : List Reg) : State :=
  rs.foldl (fun t r => t.setReg r (s.readByte (base + r.val))) s

/-- FX65: `V[0]` to `V[X]` from memory at `I`, then `I` moves past them (R160). -/
def execLoadRegs (x : Reg) (s : State) : Host.Outcome State Fault Refusal :=
  .next (s.guardBlock .readBounds s.index (regCount x) (encode (.loadRegs x))
    ((s.advance.loadBlock s.index (regBlock x)).addIndex (regCount x)))

end Sys2Proof.Machine
end

