-- ==== Sys2Proof/Machine/Random.lean ====
section
/-! DEFINITION. The random instruction (44_random.md). -/

namespace Sys2Proof.Machine

/-- `rand8()`: the byte the `rand` port gives now, a free value (R150; DESIGN CHOICE, log 5). -/
def State.rand8 (s : State) : Byte := Config.rand8 s.draws

/-- CXNN: `V[X] <- rand8() & nn`, one byte drawn (R151). -/
def execRnd (x : Reg) (nn : Byte) (s : State) : Host.Outcome State Fault Refusal :=
  .next { s.advance.setReg x (s.rand8 &&& nn) with draws := s.draws + 1 }

end Sys2Proof.Machine
end

