-- ==== Sys2Proof/Machine/Skip.lean ====
section
/-! DEFINITION. The conditional skips (42_skip.md). -/

namespace Sys2Proof.Machine

/-- 3XNN: skip if `V[X] = nn` (R120). -/
def execSeImm (x : Reg) (nn : Byte) (s : State) : Host.Outcome State Fault Refusal :=
  .next (s.skipIf (s.readReg x == nn))

/-- 4XNN: skip if `V[X] != nn` (R121). -/
def execSneImm (x : Reg) (nn : Byte) (s : State) : Host.Outcome State Fault Refusal :=
  .next (s.skipIf (s.readReg x != nn))

/-- 5XY0: skip if `V[X] = V[Y]` (R122). -/
def execSeReg (x y : Reg) (s : State) : Host.Outcome State Fault Refusal :=
  .next (s.skipIf (s.readReg x == s.readReg y))

/-- 9XY0: skip if `V[X] != V[Y]` (R123). -/
def execSneReg (x y : Reg) (s : State) : Host.Outcome State Fault Refusal :=
  .next (s.skipIf (s.readReg x != s.readReg y))

/-- A skip on the key numbered by `V[X]`: skip when its flag is `want`; `KeyIndex` when `V[X]` is above 15 (R207). -/
def State.skipOnKey (s : State) (x : Reg) (want : Bool) (opcode : Word) : State :=
  match keyOperand (s.readReg x) with
  | some k => s.skipIf (s.keyHeld k == want)
  | none => s.raise .keyIndex (byteOperand (s.readReg x)) opcode

/-- EX9E: skip if the key is held (R124). -/
def execSkp (x : Reg) (s : State) : Host.Outcome State Fault Refusal :=
  .next (s.skipOnKey x true (encode (.skp x)))

/-- EXA1: skip if the key is not held (R125). -/
def execSknp (x : Reg) (s : State) : Host.Outcome State Fault Refusal :=
  .next (s.skipOnKey x false (encode (.sknp x)))

end Sys2Proof.Machine
end

