-- ==== Sys2Proof/Machine/Timers.lean ====
section
/-! DEFINITION. Timer instructions (46_timers.md). The counting is the transaction `Tick` (HostPort.lean). -/

namespace Sys2Proof.Machine

/-- FX07: `V[X] <- DT` (R170). -/
def execLdVxDt (x : Reg) (s : State) : Host.Outcome State Fault Refusal :=
  .next (s.advance.setReg x s.dt)

/-- FX15: `DT <- V[X]` (R171). -/
def execLdDtVx (x : Reg) (s : State) : Host.Outcome State Fault Refusal :=
  .next { s.advance with dt := s.readReg x }

/-- FX18: `ST <- V[X]` (R172). -/
def execLdStVx (x : Reg) (s : State) : Host.Outcome State Fault Refusal :=
  .next { s.advance with st := s.readReg x }

end Sys2Proof.Machine
end

