-- ==== Sys2Proof/Machine/HostPort.lean ====
section
/-! DEFINITION. The host's transactions other than `Cycle` (60_exceptions.md R210 to R221, 70_reset_and_hazards.md R240 to
R243), and the placing of a word for the host of this package. -/

namespace Sys2Proof.Machine

/-- `Reset` (R240): every piece of state takes its reset value; the keys and the random source are not touched, the
fault fields but `valid` are left as they are (R37, log 7). Only the spec's state is reset, not the model's own
fields, and the run has begun (R244). -/
def State.doReset (s : State) : State :=
  { s with
    mem := []
    v := Vector.replicate 16 0
    i := 0
    pc := BitVec.ofNat 16 Config.loadBase
    dt := 0
    st := 0
    stack := []
    fb := Framebuffer.filled s.params.screenW s.params.screenH Config.resetFb
    fault := { s.fault with valid := false }
    started := true }

/-- An event on an output port (log 3). -/
def State.emit (s : State) (e : OutEvent) : State := { s with out := e :: s.out }

/-- `Load(rom)` (R241): reset, then the first `ROM_MAX` bytes of the image from 0x200; `load_ok` is 1. -/
def State.doLoad (s : State) (rom : List Byte) : State :=
  State.emit { s.doReset with mem := Memory.writeBlock s.doReset.mem Config.loadBase (rom.take Config.romMax) }
    (.loadOk true)

/-- `Load` with the failure mark (R242): reset, and `load_ok` is 0. -/
def State.doLoadFailed (s : State) : State := s.doReset.emit (.loadOk false)

/-- One count of a timer, floor at 0 (R26, R27, R211). -/
def countDown (t : Byte) : Byte := if t = 0 then 0 else t - 1

/-- The `beep` pulse of a tick that finds `ST` nonzero (R211, R212). -/
def State.beepIfSounding (s : State) : State := if s.st = 0 then s else s.emit .beep

/-- `Tick` (R211). -/
def State.doTick (s : State) : State :=
  { s.beepIfSounding with dt := countDown s.dt, st := countDown s.st }

/-- `Press(k)` (R213). -/
def State.doPress (s : State) (k : Key) : State := s.setKey k true

/-- `Release(k)` (R214). -/
def State.doRelease (s : State) (k : Key) : State := s.setKey k false

/-- `FbRead(x, y)` (R215): the byte goes out, no state of the block changes; coordinates outside the screen cannot be
presented (DESIGN CHOICE, log 19). -/
def State.doFbRead (s : State) (x y : Nat) : Host.Outcome State Fault Refusal :=
  if Transaction.wellFormed s.params (.fbRead x y) then .next (s.emit (.fbByte (s.fb.pixel x y)))
  else .refused (.fbReadOffScreen x y)

/-- The transactions of one frame of the reference host (R220): the keys, a tick, a cycle, framebuffer reads. -/
def frameTransactions (keys : Vector Bool 16) (reads : List (Nat × Nat)) : List Transaction :=
  allRegs.map (fun k => if keys[k.val] then .press k else .release k) ++ [.tick, .cycle] ++
    reads.map (fun p => .fbRead p.1 p.2)

/-- The address the next word is placed at: PC, or 0x200 where nothing can be fetched at PC (DESIGN CHOICE, log 15). -/
def State.placeAddr (s : State) : Nat :=
  if s.pc.toNat + 1 < Config.memSize then s.pc.toNat else Config.loadBase

/-- The word stored where the next step fetches, no transaction pending, the latch clear and the run begun, so that the
next step runs it (log 15). -/
def State.placeWord (s : State) (w : Word) : State :=
  { s with
    pc := BitVec.ofNat 16 s.placeAddr
    mem := Memory.writeBlock s.mem s.placeAddr [w.extractLsb' 8 8, w.extractLsb' 0 8]
    fault := { s.fault with valid := false }
    started := true
    pending := [] }

end Sys2Proof.Machine
end

