-- ==== Sys2Proof/Machine/Cycle.lean ====
section
/-! DEFINITION. The `Cycle` transaction (40_cycle.md R100 to R104) and the performing of any transaction (R210). -/

namespace Sys2Proof.Machine

/-- What a fetched word does: the instruction it decodes to, or the no-op (R102, R103). -/
def runWord (w : Word) (s : State) : Host.Outcome State Fault Refusal :=
  match decode w with
  | .ok i => exec i s
  | .error _ => execNop s

/-- `Cycle` (R100): nothing on a halted core (R203); `FetchBounds` with opcode 0 when the fetch leaves memory (R204);
else the fetched word. -/
def cycle (s : State) : Host.Outcome State Fault Refusal :=
  if s.fault.valid then .next s
  else
    match s.fetch with
    | none => .next (s.raise .fetchBounds s.pc 0)
    | some w => runWord w s

/-- What a transaction of the host does once a run has begun (R210, R217); on a halted core only `Cycle` does nothing
(R221). -/
def transact (t : Transaction) (s : State) : Host.Outcome State Fault Refusal :=
  match t with
  | .reset => .next s.doReset
  | .load rom => .next (s.doLoad rom)
  | .loadFailed => .next s.doLoadFailed
  | .cycle => cycle s
  | .tick => .next s.doTick
  | .press k => .next (s.doPress k)
  | .release k => .next (s.doRelease k)
  | .fbRead x y => s.doFbRead x y

/-- One transaction of the host: before the first `Reset` or `Load` no other has a defined result, and the model refuses
it (R244, log 11). -/
def perform (t : Transaction) (s : State) : Host.Outcome State Fault Refusal :=
  if s.started || t.beginsRun then transact t s else .refused .beforeReset

/-- The next transaction: the first pending one, taken off the schedule, or a `Cycle` when none is pending
(R217; DESIGN CHOICE, log 2). -/
def nextTransaction (s : State) : Host.Outcome State Fault Refusal :=
  match s.pending with
  | [] => perform .cycle s
  | t :: rest => perform t { s with pending := rest }

end Sys2Proof.Machine
end

