-- ==== Sys2Proof/Machine/Step.lean ====
section
/-! DEFINITION. The step: one transaction (R2, R217). -/

namespace Sys2Proof.Machine

/-- One step of the block: the host's next transaction (log 2). -/
def step (s : State) : Host.Outcome State Fault Refusal := nextTransaction s

/-- The state with the table word `w` of `nbits` bits placed so that the next step runs it (log 15). -/
def State.withFetchWord (s : State) (nbits w : Nat) : State := s.placeWord (tableWord nbits w)

end Sys2Proof.Machine
end

