-- ==== Sys2Proof/Safety.lean ====
section
/-! DEFINITION. What the statements are said in: a safe run, what an instruction leaves unchanged, a fault taken, the
sprite's pixels, and the machine's invariants. -/

namespace Sys2Proof.Safety

open Sys2Proof.Machine

/-! ## A safe run -/

/-- A state of a successful run: the latch is clear, since the faulted state is never its final state (R203). -/
def Safe (s : State) : Prop := s.fault.valid = false

/-- The end of a run (R248): the latch is clear and the next instruction is `JP self`. -/
def AtEnd (s : State) : Prop :=
  Safe s ∧ ∃ w nnn, s.fetch = some w ∧ decode w = .ok (.jp nnn) ∧ addrOperand nnn = s.pc

/-! ## Frames -/

/-- What an instruction may change besides PC: the registers listed, the parts flagged, and the `memLen` bytes of memory
from `memBase`. -/
structure Touched where
  regs : List Reg := []
  index : Bool := false
  dt : Bool := false
  st : Bool := false
  stack : Bool := false
  fb : Bool := false
  draws : Bool := false
  memBase : Nat := 0
  memLen : Nat := 0

/-- From `s` to `t` nothing changed but what `c` names and PC: every other register, the special registers, the stack, every
byte of memory outside the block, every pixel, the keys, the fault latch, and the model's own fields. -/
structure Keeps (c : Touched) (s t : State) : Prop where
  regs : ∀ r, r ∉ c.regs → t.readReg r = s.readReg r
  index : c.index = false → t.i = s.i
  dt : c.dt = false → t.dt = s.dt
  st : c.st = false → t.st = s.st
  stack : c.stack = false → t.stack = s.stack
  memory : ∀ a, ¬ (c.memBase ≤ a ∧ a < c.memBase + c.memLen) → t.readByte a = s.readByte a
  pixels : c.fb = false → ∀ x y, t.fb.pixel x y = s.fb.pixel x y
  keys : ∀ k, t.keyHeld k = s.keyHeld k
  fault : t.fault = s.fault
  draws : c.draws = false → t.draws = s.draws
  started : t.started = s.started
  params : t.params = s.params
  pending : t.pending = s.pending
  out : t.out = s.out

/-- `t` is `s` with a fault taken (R201): the latch holds the code, `pc0`, the word and the information, and every other
field is as in `s`, PC included. -/
def FaultTaken (code : BitVec 3) (info opcode : Word) (s t : State) : Prop :=
  t = { s with fault := { valid := true, cause := code, pc := s.pc, opcode := opcode, info := info } }

/-- The word of `i` is one that a row of R86 with this mask and match selects. -/
def EncodedAs (mask bits : Word) (i : Instr) : Prop := encode i &&& mask = bits

/-! ## The sprite's pixels (R181) -/

/-- Physical pixel `(px, py)` belongs to the block of a 1 bit of the sprite whose left upper corner is `(x0, y0)`. -/
def SpriteCovers (sprite : List Byte) (x0 y0 px py : Nat) : Prop :=
  ∃ row bit, ∃ h : row < sprite.length, bit < 8 ∧ sprite[row].getLsbD (7 - bit) = true ∧
    x0 + bit * 10 ≤ px ∧ px < x0 + bit * 10 + 10 ∧ y0 + row * 10 ≤ py ∧ py < y0 + row * 10 + 10

/-- Physical pixel `(px, py)` is a target of the drawing DXYN makes in `s`: it is covered by the sprite at `I` and inside
the screen (R181, R183). -/
def DrawTarget (s : State) (x y : Reg) (n : BitVec 4) (px py : Nat) : Prop :=
  SpriteCovers (Memory.readBlock s.mem s.index n.toNat) ((s.readReg x).toNat * 10) ((s.readReg y).toNat * 10) px py ∧
    px < s.params.screenW ∧ py < s.params.screenH

/-! ## Invariants -/

/-- The largest value PC takes, `0xFFF + 0xFF` of BNNN (R23). -/
def pcMax : Nat := 0x10FE

/-- What every step keeps: memory and the framebuffer in their form (R35, R32), no more return addresses than
`STACK_DEPTH` (R29), PC and the return addresses inside the bounds that keep them from wrapping (R23), and a set latch with
one of the six causes (R200). -/
structure Inv (s : State) : Prop where
  memory : Memory.wf s.mem
  framebuffer : Framebuffer.wf s.params.screenW s.params.screenH s.fb
  stackDepth : s.stack.length ≤ s.params.stackDepth
  pc : s.pc.toNat ≤ pcMax
  stackEntries : ∀ w ∈ s.stack, w.toNat ≤ Config.memSize
  cause : s.fault.valid = true → 1 ≤ s.fault.cause.toNat ∧ s.fault.cause.toNat ≤ 6

/-- The screen is made of whole blocks (R33). -/
def WholeBlocks (p : Config.Params) : Prop := 10 ∣ p.screenW ∧ 10 ∣ p.screenH

/-- Every aligned 10 by 10 block inside the screen is uniform (R33). -/
def BlocksUniform (s : State) : Prop :=
  ∀ x y, x < s.params.screenW → y < s.params.screenH →
    s.fb.pixel x y = s.fb.pixel (x / 10 * 10) (y / 10 * 10)

end Sys2Proof.Safety
end

