-- ==== Sys2Proof/Certificates/Slice0/Obligations.lean ====
section
/-! DEFINITION. The statements for the provers, each from the numbered rules its docstring cites. -/

open Sys2Proof Sys2Proof.Machine Sys2Proof.Safety

/-- Decoding the encoding of any instruction gives it back, alone and as bytes in memory order (R53, R80, R81, R86).
-/
def Obligations.DecodeOfEncodeIsTheInstruction : Prop :=
  ∀ (i : Instr) (rest : List Byte),
    decode (encode i) = .ok i ∧ decodeBytes (encodeBytes i ++ rest) = .ok (i, rest)

/-- Encoding a decoded word gives the word back (R81, R86). -/
def Obligations.EncodeOfDecodeIsTheWord : Prop :=
  ∀ (w : Word) (i : Instr), decode w = .ok i → encode i = w

/-- A word selects the instruction of the one row whose mask and match it meets, and no row means the no-op (R85).
-/
def Obligations.DecodeFollowsTheOpcodeMap : Prop :=
  ∀ w : Word,
    (∀ i, decode w = .ok i → rowOf i ∈ opTable ∧ w &&& (rowOf i).mask = (rowOf i).bits) ∧
    (∀ r ∈ opTable, w &&& r.mask = r.bits → ∃ i, decode w = .ok i ∧ rowOf i = r) ∧
    (∀ r ∈ opTable, ∀ q ∈ opTable, w &&& r.mask = r.bits → w &&& q.mask = q.bits → r = q) ∧
    ((∀ r ∈ opTable, w &&& r.mask ≠ r.bits) →
      decode w = .error (.unknownWord w) ∧ ∀ s : State, runWord w s = .next { s with pc := s.pc + 2 })

/-- The words that are no instruction, family by family (R88, R89, 30_encoding.md section 4). -/
def Obligations.UnknownWordsByFamily : Prop :=
  ∀ w : Word,
    (∃ e, decode w = .error e) ↔
      ((nibble w 3 = 0x0 ∧ w ≠ 0x00E0 ∧ w ≠ 0x00EE) ∨
        ((nibble w 3 = 0x5 ∨ nibble w 3 = 0x9) ∧ nibble w 0 ≠ 0) ∨
        (nibble w 3 = 0x8 ∧ nibble w 0 ∈ ([0x8, 0x9, 0xA, 0xB, 0xC, 0xD, 0xF] : List (BitVec 4))) ∨
        (nibble w 3 = 0xE ∧ fieldNN w ∉ ([0x9E, 0xA1] : List Byte)) ∨
        (nibble w 3 = 0xF ∧
          fieldNN w ∉ ([0x07, 0x0A, 0x15, 0x18, 0x1E, 0x29, 0x33, 0x55, 0x65] : List Byte)))

/-- A few words written out from the patterns decode to the instructions they stand for (R81, R86,
95_test_vectors.md section 2.1). -/
def Obligations.WordsWrittenFromThePatterns : Prop :=
  decode 0x00E0 = .ok .cls ∧ decode 0x00EE = .ok .ret ∧ decode 0x1ABC = .ok (.jp 0xABC) ∧
    decode 0x6A2A = .ok (.ldImm 0xA 0x2A) ∧ decode 0x8126 = .ok (.shr 1 2) ∧
    decode 0xD12F = .ok (.drw 1 2 0xF) ∧ decode 0xE5A1 = .ok (.sknp 5) ∧ decode 0xF265 = .ok (.loadRegs 2) ∧
    decode 0x0000 = .error (.unknownWord 0x0000) ∧ decode 0x5121 = .error (.unknownWord 0x5121) ∧
    decode 0xF075 = .error (.unknownWord 0xF075)

/-- A step is the first pending transaction, or a Cycle when none is pending (model's choice, log 2) (R210, R217).
-/
def Obligations.StepPerformsTheNextTransaction : Prop :=
  ∀ s : State,
    (s.pending = [] → step s = perform .cycle s) ∧
    ∀ tr rest, s.pending = tr :: rest → step s = perform tr { s with pending := rest }

/-- A step with nothing pending (log 2) runs the instruction decoded at PC; a Cycle does the same (R53, R100, R102,
R244, 40_cycle.md section 1). -/
def Obligations.StepRunsTheDecodedInstruction : Prop :=
  ∀ (s : State) (w : Word) (i : Instr) (rest : List Transaction),
    s.started = true → s.fault.valid = false → s.pc.toNat + 1 < 4095 →
    w = s.readByte s.pc.toNat ++ s.readByte (s.pc.toNat + 1) → decode w = .ok i →
    cycle s = exec i s ∧ (s.pending = [] → step s = exec i s) ∧
      (s.pending = .cycle :: rest → step s = exec i { s with pending := rest })

/-- A word that matches no instruction changes nothing but PC (R88). -/
def Obligations.UnknownWordMovesPcOnly : Prop :=
  ∀ (s : State) (w : Word),
    s.fault.valid = false → s.fetch = some w → (∀ r ∈ opTable, w &&& r.mask ≠ r.bits) →
    cycle s = .next { s with pc := s.pc + 2 }

/-- A fetch whose bytes are not both valid addresses faults and does nothing else; any other fetch gives the big-
endian word (R55, R56, R101, R204). -/
def Obligations.FetchOutsideMemoryFaults : Prop :=
  ∀ s : State,
    (4094 ≤ s.pc.toNat → s.fault.valid = false → ∃ t, cycle s = .next t ∧ FaultTaken 1 s.pc 0 s t) ∧
    (s.pc.toNat < 4094 → s.fetch = some (s.readByte s.pc.toNat ++ s.readByte (s.pc.toNat + 1)))

/-- A halted core does nothing on a Cycle, and only Reset or Load clears the latch (R203). -/
def Obligations.HaltedCoreIgnoresCycle : Prop :=
  ∀ s : State, s.fault.valid = true →
    cycle s = .next s ∧
    ∀ tr t, perform tr s = .next t → t.fault.valid = false →
      tr = .reset ∨ tr = .loadFailed ∨ ∃ rom, tr = .load rom

/-- A cycle that faults commits nothing and latches the cause, pc0 and the fetched word (R201). -/
def Obligations.FaultsArePrecise : Prop :=
  ∀ s t : State, s.fault.valid = false → cycle s = .next t → t.fault.valid = true →
    ∃ (c : Cause) (info : Word), FaultTaken c.code info (s.fetch.getD 0) s t

/-- Which instruction raises which fault, when, and with what information (R200, 60_exceptions.md section 1). -/
def Obligations.FaultCausesAsTabled : Prop :=
  (∀ (i : Instr) (s t : State), s.fault.valid = false → exec i s = .next t → t.fault.valid = true →
      match i with
      | .ret => s.stack.length = 0 ∧ t.fault.cause = 4 ∧ t.fault.info = 0
      | .call _ => s.stack.length = s.params.stackDepth ∧ t.fault.cause = 5 ∧ t.fault.info = s.pc + 2
      | .skp x | .sknp x =>
        15 < (s.readReg x).toNat ∧ t.fault.cause = 6 ∧ t.fault.info.toNat = (s.readReg x).toNat
      | .ldB _ => 4095 ≤ s.i.toNat + 2 ∧ t.fault.cause = 3 ∧ t.fault.info.toNat = max s.i.toNat 4095
      | .storeRegs x => 4095 ≤ s.i.toNat + x.val ∧ t.fault.cause = 3 ∧ t.fault.info.toNat = max s.i.toNat 4095
      | .loadRegs x => 4095 ≤ s.i.toNat + x.val ∧ t.fault.cause = 2 ∧ t.fault.info.toNat = max s.i.toNat 4095
      | .drw _ _ n =>
        n ≠ 0 ∧ 4095 ≤ s.i.toNat + n.toNat - 1 ∧ t.fault.cause = 2 ∧ t.fault.info.toNat = max s.i.toNat 4095
      | _ => False) ∧
    (∀ s t : State, s.fault.valid = false → 4094 ≤ s.pc.toNat → cycle s = .next t →
      t.fault.valid = true ∧ t.fault.cause = 1 ∧ t.fault.info = s.pc) ∧
    (∀ (s t : State) (w : Word) (e : DecodeReject), s.fault.valid = false → s.fetch = some w →
      decode w = .error e → cycle s = .next t → t.fault.valid = false)

/-- 1NNN loads PC with nnn and changes nothing else (R110). -/
def Obligations.JumpLoadsPc : Prop :=
  ∀ (nnn : BitVec 12) (s : State), EncodedAs 0xF000 0x1000 (.jp nnn) ∧
    ∃ t, exec (.jp nnn) s = .next t ∧ t.pc.toNat = nnn.toNat ∧ Keeps {} s t

/-- 2NNN pushes the advanced PC and jumps; on a full stack it raises StackOverflow and does nothing else (R111). -/
def Obligations.CallPushesTheAdvancedPc : Prop :=
  ∀ (nnn : BitVec 12) (s : State), EncodedAs 0xF000 0x2000 (.call nnn) ∧
    (s.stack.length ≠ s.params.stackDepth →
      ∃ t, exec (.call nnn) s = .next t ∧ t.stack = (s.pc + 2) :: s.stack ∧ t.pc.toNat = nnn.toNat ∧
        Keeps { stack := true } s t) ∧
    (s.stack.length = s.params.stackDepth →
      ∃ t, exec (.call nnn) s = .next t ∧ FaultTaken 5 (s.pc + 2) (encode (.call nnn)) s t)

/-- 00EE pops PC; on an empty stack it raises StackUnderflow and does nothing else (R112). -/
def Obligations.ReturnPopsPc : Prop :=
  ∀ s : State, encode .ret = 0x00EE ∧
    (∀ w rest, s.stack = w :: rest →
      ∃ t, exec .ret s = .next t ∧ t.pc = w ∧ t.stack = rest ∧ Keeps { stack := true } s t) ∧
    (s.stack = [] → ∃ t, exec .ret s = .next t ∧ FaultTaken 4 0 0x00EE s t)

/-- BNNN loads PC with V0 + nnn, not masked, and changes nothing else (R113). -/
def Obligations.JumpWithOffsetAddsV0 : Prop :=
  ∀ (nnn : BitVec 12) (s : State), EncodedAs 0xF000 0xB000 (.jpV0 nnn) ∧
    ∃ t, exec (.jpV0 nnn) s = .next t ∧ t.pc.toNat = (s.readReg 0).toNat + nnn.toNat ∧ t.pc.toNat ≤ 0x10FE ∧
      Keeps {} s t

/-- A return right after a call resumes after the call with all state as before it (R111, R112, R250,
41_control_flow.md). -/
def Obligations.CallThenReturnComesBack : Prop :=
  ∀ (nnn : BitVec 12) (s : State), s.stack.length ≠ s.params.stackDepth →
    ∃ t, exec (.call nnn) s = .next t ∧ exec .ret t = .next { s with pc := s.pc + 2 }

/-- 3XNN skips exactly when V[X] = nn, 4XNN exactly when not; nothing but PC changes (R120, R121). -/
def Obligations.SkipOnImmediate : Prop :=
  ∀ (x : Reg) (nn : Byte) (s : State),
    EncodedAs 0xF000 0x3000 (.seImm x nn) ∧ EncodedAs 0xF000 0x4000 (.sneImm x nn) ∧
    (∃ t, exec (.seImm x nn) s = .next t ∧ t.pc = (if s.readReg x = nn then s.pc + 4 else s.pc + 2) ∧ Keeps {} s t) ∧
    (∃ t, exec (.sneImm x nn) s = .next t ∧ t.pc = (if s.readReg x = nn then s.pc + 2 else s.pc + 4) ∧ Keeps {} s t)

/-- 5XY0 skips exactly when V[X] = V[Y], 9XY0 exactly when not; nothing but PC changes (R122, R123). -/
def Obligations.SkipOnRegisters : Prop :=
  ∀ (x y : Reg) (s : State),
    EncodedAs 0xF00F 0x5000 (.seReg x y) ∧ EncodedAs 0xF00F 0x9000 (.sneReg x y) ∧
    (∀ w : Word, (nibble w 3 = 5 ∨ nibble w 3 = 9) → nibble w 0 ≠ 0 → decode w = .error (.unknownWord w)) ∧
    (∃ t, exec (.seReg x y) s = .next t ∧ t.pc = (if s.readReg x = s.readReg y then s.pc + 4 else s.pc + 2) ∧
      Keeps {} s t) ∧
    (∃ t, exec (.sneReg x y) s = .next t ∧ t.pc = (if s.readReg x = s.readReg y then s.pc + 2 else s.pc + 4) ∧
      Keeps {} s t)

/-- EX9E skips exactly when the key numbered by V[X] is held, EXA1 when not; above 15 both raise KeyIndex (R124,
R125, R207). -/
def Obligations.SkipOnKey : Prop :=
  ∀ (x : Reg) (s : State),
    EncodedAs 0xF0FF 0xE09E (.skp x) ∧ EncodedAs 0xF0FF 0xE0A1 (.sknp x) ∧
    (∀ k : Key, (s.readReg x).toNat = k.val →
      (∃ t, exec (.skp x) s = .next t ∧ t.pc = (if s.keyHeld k = true then s.pc + 4 else s.pc + 2) ∧ Keeps {} s t) ∧
      (∃ t, exec (.sknp x) s = .next t ∧ t.pc = (if s.keyHeld k = true then s.pc + 2 else s.pc + 4) ∧ Keeps {} s t)) ∧
    (15 < (s.readReg x).toNat →
      (∃ t, exec (.skp x) s = .next t ∧
        FaultTaken 6 (BitVec.ofNat 16 (s.readReg x).toNat) (encode (.skp x)) s t) ∧
      (∃ t, exec (.sknp x) s = .next t ∧
        FaultTaken 6 (BitVec.ofNat 16 (s.readReg x).toNat) (encode (.sknp x)) s t))

/-- 6XNN loads nn; 7XNN adds nn modulo 256 with no flag; only V[X] and PC change (R130, R131). -/
def Obligations.LoadAndAddImmediate : Prop :=
  ∀ (x : Reg) (nn : Byte) (s : State),
    EncodedAs 0xF000 0x6000 (.ldImm x nn) ∧ EncodedAs 0xF000 0x7000 (.addImm x nn) ∧
    (∃ t, exec (.ldImm x nn) s = .next t ∧ t.readReg x = nn ∧ t.pc = s.pc + 2 ∧ Keeps { regs := [x] } s t) ∧
    (∃ t, exec (.addImm x nn) s = .next t ∧ (t.readReg x).toNat = ((s.readReg x).toNat + nn.toNat) % 256 ∧
      t.pc = s.pc + 2 ∧ Keeps { regs := [x] } s t)

/-- 8XY0 copies, 8XY1, 8XY2 and 8XY3 are or, and, exclusive or, bit by bit; only V[X] and PC change (R132, R133,
R134, R135). -/
def Obligations.CopyAndBitwise : Prop :=
  ∀ (x y : Reg) (s : State),
    EncodedAs 0xF00F 0x8000 (.ldReg x y) ∧ EncodedAs 0xF00F 0x8001 (.orReg x y) ∧
    EncodedAs 0xF00F 0x8002 (.andReg x y) ∧ EncodedAs 0xF00F 0x8003 (.xorReg x y) ∧
    (∃ t, exec (.ldReg x y) s = .next t ∧ t.readReg x = s.readReg y ∧ t.pc = s.pc + 2 ∧
      Keeps { regs := [x] } s t) ∧
    (∃ t, exec (.orReg x y) s = .next t ∧
      (∀ j, (t.readReg x).getLsbD j = ((s.readReg x).getLsbD j || (s.readReg y).getLsbD j)) ∧
      t.pc = s.pc + 2 ∧ Keeps { regs := [x] } s t) ∧
    (∃ t, exec (.andReg x y) s = .next t ∧
      (∀ j, (t.readReg x).getLsbD j = ((s.readReg x).getLsbD j && (s.readReg y).getLsbD j)) ∧
      t.pc = s.pc + 2 ∧ Keeps { regs := [x] } s t) ∧
    (∃ t, exec (.xorReg x y) s = .next t ∧
      (∀ j, (t.readReg x).getLsbD j = ((s.readReg x).getLsbD j != (s.readReg y).getLsbD j)) ∧
      t.pc = s.pc + 2 ∧ Keeps { regs := [x] } s t)

/-- 8XY4: sum modulo 256, VF 1 exactly when it exceeds 255, the flag written last (R136). -/
def Obligations.AddSetsCarry : Prop :=
  ∀ (x y : Reg) (s : State), EncodedAs 0xF00F 0x8004 (.addReg x y) ∧
    ∃ t, exec (.addReg x y) s = .next t ∧
      (x ≠ 15 → (t.readReg x).toNat = ((s.readReg x).toNat + (s.readReg y).toNat) % 256) ∧
      (t.readReg 15).toNat = (if (s.readReg x).toNat + (s.readReg y).toNat > 255 then 1 else 0) ∧
      t.pc = s.pc + 2 ∧ Keeps { regs := [x, 15] } s t

/-- 8XY5 and 8XY7: difference modulo 256, VF 0 exactly on a borrow, the flag written last (R137, R139). -/
def Obligations.SubtractSetsNotBorrow : Prop :=
  ∀ (x y : Reg) (s : State), EncodedAs 0xF00F 0x8005 (.sub x y) ∧ EncodedAs 0xF00F 0x8007 (.subn x y) ∧
    (∃ t, exec (.sub x y) s = .next t ∧
      (x ≠ 15 → (t.readReg x).toNat = ((s.readReg x).toNat + 256 - (s.readReg y).toNat) % 256) ∧
      (t.readReg 15).toNat = (if (s.readReg x).toNat < (s.readReg y).toNat then 0 else 1) ∧
      t.pc = s.pc + 2 ∧ Keeps { regs := [x, 15] } s t) ∧
    (∃ t, exec (.subn x y) s = .next t ∧
      (x ≠ 15 → (t.readReg x).toNat = ((s.readReg y).toNat + 256 - (s.readReg x).toNat) % 256) ∧
      (t.readReg 15).toNat = (if (s.readReg y).toNat < (s.readReg x).toNat then 0 else 1) ∧
      t.pc = s.pc + 2 ∧ Keeps { regs := [x, 15] } s t)

/-- 8XY6 and 8XYE shift V[X] by one, VF the bit shifted out, written last; y is ignored (R138, R140). -/
def Obligations.ShiftsByOne : Prop :=
  ∀ (x y : Reg) (s : State), EncodedAs 0xF00F 0x8006 (.shr x y) ∧ EncodedAs 0xF00F 0x800E (.shl x y) ∧
    (∃ t, exec (.shr x y) s = .next t ∧ (x ≠ 15 → (t.readReg x).toNat = (s.readReg x).toNat / 2) ∧
      (t.readReg 15).toNat = (s.readReg x).toNat % 2 ∧ t.pc = s.pc + 2 ∧ Keeps { regs := [x, 15] } s t ∧
      ∀ z, exec (.shr x z) s = .next t) ∧
    (∃ t, exec (.shl x y) s = .next t ∧ (x ≠ 15 → (t.readReg x).toNat = (s.readReg x).toNat * 2 % 256) ∧
      (t.readReg 15).toNat = (s.readReg x).toNat / 128 ∧ t.pc = s.pc + 2 ∧ Keeps { regs := [x, 15] } s t ∧
      ∀ z, exec (.shl x z) s = .next t)

/-- VF changes only through the six flag writers or an instruction that names it as destination; a flag is 0 or 1
(R21, R24, 10_state.md section 3). -/
def Obligations.OnlyFlagWritersChangeVF : Prop :=
  ∀ (i : Instr) (s t : State), exec i s = .next t →
    (t.readReg 15 ≠ s.readReg 15 →
      match i with
      | .addReg _ _ | .sub _ _ | .shr _ _ | .subn _ _ | .shl _ _ | .drw _ _ _ => True
      | .ldImm x _ | .addImm x _ | .ldReg x _ | .orReg x _ | .andReg x _ | .xorReg x _ | .rnd x _ | .ldVxDt x
      | .ldVxK x | .loadRegs x => x = 15
      | _ => False) ∧
    (match i with
      | .addReg _ _ | .sub _ _ | .shr _ _ | .subn _ _ | .shl _ _ => t.readReg 15 = 0 ∨ t.readReg 15 = 1
      | .drw _ _ _ => t.pc = s.pc + 2 → t.readReg 15 = 0 ∨ t.readReg 15 = 1
      | _ => True)

/-- CXNN puts the drawn byte (named by the model's counter, its choice, log 5) and nn into V[X] and draws one byte
(R150, R151). -/
def Obligations.RandomIsMasked : Prop :=
  ∀ (x : Reg) (nn : Byte) (s : State), EncodedAs 0xF000 0xC000 (.rnd x nn) ∧
    ∃ t, exec (.rnd x nn) s = .next t ∧ t.readReg x = (Config.rand8 s.draws &&& nn) ∧
      t.readReg x &&& ~~~nn = 0 ∧ (t.readReg x).toNat ≤ nn.toNat ∧ t.draws = s.draws + 1 ∧
      t.pc = s.pc + 2 ∧ Keeps { regs := [x], draws := true } s t ∧
    ∀ (i : Instr) (u v : State), (∀ z m, i ≠ .rnd z m) → exec i u = .next v → v.draws = u.draws

/-- No instruction but CXNN draws a byte or depends on what the rand port gives (R150, 44_random.md). -/
def Obligations.OnlyRandomSamplesTheRandPort : Prop :=
  ∀ (i : Instr) (s : State) (d : Nat), (∀ x nn, i ≠ .rnd x nn) →
    ∃ t, exec i s = .next t ∧ t.draws = s.draws ∧ exec i { s with draws := d } = .next { t with draws := d }

/-- ANNN, FX1E and FX29 write I as their rules say, VF and all else unchanged (R155, R156, R157). -/
def Obligations.IndexInstructions : Prop :=
  (∀ (nnn : BitVec 12) (s : State), EncodedAs 0xF000 0xA000 (.ldI nnn) ∧
      ∃ t, exec (.ldI nnn) s = .next t ∧ t.i.toNat = nnn.toNat ∧ t.pc = s.pc + 2 ∧ Keeps { index := true } s t) ∧
    (∀ (x : Reg) (s : State), EncodedAs 0xF0FF 0xF01E (.addI x) ∧
      ∃ t, exec (.addI x) s = .next t ∧ t.i.toNat = (s.i.toNat + (s.readReg x).toNat) % 65536 ∧
        t.pc = s.pc + 2 ∧ Keeps { index := true } s t) ∧
    (∀ (x : Reg) (s : State), EncodedAs 0xF0FF 0xF029 (.ldF x) ∧
      ∃ t, exec (.ldF x) s = .next t ∧ t.i.toNat = (s.readReg x).toNat * 5 ∧ t.pc = s.pc + 2 ∧
        Keeps { index := true } s t)

/-- FX33 writes the three decimal digits of V[X] at I, I+1, I+2 and nothing else, or raises WriteBounds and writes
nothing (R158). -/
def Obligations.BcdWritesThreeDigits : Prop :=
  ∀ (x : Reg) (s : State), EncodedAs 0xF0FF 0xF033 (.ldB x) ∧
    (s.i.toNat + 2 < 4095 →
      ∃ t, exec (.ldB x) s = .next t ∧ (t.readByte s.index).toNat = (s.readReg x).toNat / 100 ∧
        (t.readByte (s.index + 1)).toNat = (s.readReg x).toNat / 10 % 10 ∧
        (t.readByte (s.index + 2)).toNat = (s.readReg x).toNat % 10 ∧ t.pc = s.pc + 2 ∧
        Keeps { memBase := s.index, memLen := 3 } s t) ∧
    (4095 ≤ s.i.toNat + 2 →
      ∃ t, exec (.ldB x) s = .next t ∧
        FaultTaken 3 (BitVec.ofNat 16 (max s.i.toNat 4095)) (encode (.ldB x)) s t)

/-- FX55 stores V0 to VX from I upward and moves I past them, or raises WriteBounds and changes nothing else (R159).
-/
def Obligations.StoreRegistersWritesTheBlock : Prop :=
  ∀ (x : Reg) (s : State), EncodedAs 0xF0FF 0xF055 (.storeRegs x) ∧
    (s.i.toNat + x.val < 4095 →
      ∃ t, exec (.storeRegs x) s = .next t ∧ (∀ r : Reg, r ≤ x → t.readByte (s.index + r.val) = s.readReg r) ∧
        t.i.toNat = s.i.toNat + x.val + 1 ∧ t.pc = s.pc + 2 ∧
        Keeps { index := true, memBase := s.index, memLen := x.val + 1 } s t) ∧
    (4095 ≤ s.i.toNat + x.val →
      ∃ t, exec (.storeRegs x) s = .next t ∧
        FaultTaken 3 (BitVec.ofNat 16 (max s.i.toNat 4095)) (encode (.storeRegs x)) s t)

/-- FX65 loads V0 to VX from I upward and moves I past them, or raises ReadBounds and changes nothing else (R160).
-/
def Obligations.LoadRegistersReadsTheBlock : Prop :=
  ∀ (x : Reg) (s : State), EncodedAs 0xF0FF 0xF065 (.loadRegs x) ∧
    (s.i.toNat + x.val < 4095 →
      ∃ t, exec (.loadRegs x) s = .next t ∧ (∀ r : Reg, r ≤ x → t.readReg r = s.readByte (s.index + r.val)) ∧
        t.i.toNat = s.i.toNat + x.val + 1 ∧ t.pc = s.pc + 2 ∧
        Keeps { regs := allRegs.filter (fun r => decide (r ≤ x)), index := true } s t) ∧
    (4095 ≤ s.i.toNat + x.val →
      ∃ t, exec (.loadRegs x) s = .next t ∧
        FaultTaken 2 (BitVec.ofNat 16 (max s.i.toNat 4095)) (encode (.loadRegs x)) s t)

/-- Bytes stored by FX55 are what the next fetch reads when PC points at them (R65, R252, R159). -/
def Obligations.StoredBytesAreFetchedNext : Prop :=
  ∀ (x r q : Reg) (s t : State), s.i.toNat + x.val < 4095 → q.val = r.val + 1 → q ≤ x →
    exec (.storeRegs x) s = .next t → t.pc.toNat = s.i.toNat + r.val →
    t.fetch = some (s.readReg r ++ s.readReg q)

/-- A byte of memory changes only by FX33 or FX55 inside their block, or by Reset or Load (R50, R59, R63, R66). -/
def Obligations.OnlyStoresAndTheHostWriteMemory : Prop :=
  (∀ (i : Instr) (s t : State) (a : Nat), exec i s = .next t → t.readByte a ≠ s.readByte a →
      match i with
      | .ldB _ => s.index ≤ a ∧ a ≤ s.index + 2
      | .storeRegs x => s.index ≤ a ∧ a ≤ s.index + x.val
      | _ => False) ∧
    (∀ (tr : Transaction) (s t : State) (a : Nat), perform tr s = .next t → t.readByte a ≠ s.readByte a →
      tr = .cycle ∨ tr = .reset ∨ tr = .loadFailed ∨ ∃ rom, tr = .load rom)

/-- FX07 reads DT, FX15 and FX18 set DT and ST from V[X]; nothing else changes (R170, R171, R172). -/
def Obligations.TimerInstructions : Prop :=
  ∀ (x : Reg) (s : State),
    EncodedAs 0xF0FF 0xF007 (.ldVxDt x) ∧ EncodedAs 0xF0FF 0xF015 (.ldDtVx x) ∧
    EncodedAs 0xF0FF 0xF018 (.ldStVx x) ∧
    (∃ t, exec (.ldVxDt x) s = .next t ∧ t.readReg x = s.dt ∧ t.pc = s.pc + 2 ∧ Keeps { regs := [x] } s t) ∧
    (∃ t, exec (.ldDtVx x) s = .next t ∧ t.dt = s.readReg x ∧ t.pc = s.pc + 2 ∧ Keeps { dt := true } s t) ∧
    (∃ t, exec (.ldStVx x) s = .next t ∧ t.st = s.readReg x ∧ t.pc = s.pc + 2 ∧ Keeps { st := true } s t)

/-- Tick decrements each nonzero timer, floor at 0, beeps exactly when ST was nonzero, and changes nothing else
(R211). -/
def Obligations.TickCountsDown : Prop :=
  ∀ s : State, s.started = true → ∃ t, perform .tick s = .next t ∧ t.dt.toNat = s.dt.toNat - 1 ∧ t.st.toNat = s.st.toNat - 1 ∧
    t.out = (if s.st.toNat = 0 then s.out else .beep :: s.out) ∧
    t = { s with dt := t.dt, st := t.st, out := t.out }

/-- After n pending ticks (log 2) each timer has lost n, floor at 0, and ST's ticks left have beeped (R26, R27,
R172, R211, R255). -/
def Obligations.TicksRunTheTimersOut : Prop :=
  ∀ (n : Nat) (s : State) (rest : List Transaction), s.started = true → s.pending = List.replicate n .tick ++ rest →
    ∃ t, core.run n s = .next t ∧ t.dt.toNat = s.dt.toNat - n ∧ t.st.toNat = s.st.toNat - n ∧
      t.out = List.replicate (min n s.st.toNat) .beep ++ s.out ∧
      t = { s with dt := t.dt, st := t.st, out := t.out, pending := rest }

/-- Press(k) sets KEY[k], Release(k) clears it, and nothing else changes (R213, R214). -/
def Obligations.PressAndReleaseSetOneFlag : Prop :=
  ∀ (k : Key) (s : State), s.started = true →
    (∃ t, perform (.press k) s = .next t ∧ t.keyHeld k = true ∧ (∀ j, j ≠ k → t.keyHeld j = s.keyHeld j) ∧
      t = { s with key := t.key }) ∧
    (∃ t, perform (.release k) s = .next t ∧ t.keyHeld k = false ∧ (∀ j, j ≠ k → t.keyHeld j = s.keyHeld j) ∧
      t = { s with key := t.key })

/-- FX0A gives the lowest held key, or leaves all state as it was when none is held (R175, R176). -/
def Obligations.WaitForKey : Prop :=
  ∀ (x : Reg) (s : State), EncodedAs 0xF0FF 0xF00A (.ldVxK x) ∧
    ((∀ k, s.keyHeld k = false) → exec (.ldVxK x) s = .next s) ∧
    (∀ k, s.keyHeld k = true → (∀ j, j < k → s.keyHeld j = false) →
      ∃ t, exec (.ldVxK x) s = .next t ∧ (t.readReg x).toNat = k.val ∧ t.pc = s.pc + 2 ∧
        Keeps { regs := [x] } s t)

/-- No instruction and no transaction but Press and Release changes a key flag (R31, R37, R240). -/
def Obligations.OnlyPressAndReleaseWriteKeys : Prop :=
  (∀ (i : Instr) (s t : State), exec i s = .next t → t.key = s.key) ∧
    (∀ (tr : Transaction) (s t : State), perform tr s = .next t → (∀ k, tr ≠ .press k ∧ tr ≠ .release k) →
      t.key = s.key)

/-- 00E0 gives every framebuffer byte CLS_FILL, 255 by default, and changes nothing else (R180). -/
def Obligations.ClearFillsTheScreen : Prop :=
  ∀ s : State, encode .cls = 0x00E0 ∧ Config.defaults.clsFill.byte = 255 ∧
    ∃ t, exec .cls s = .next t ∧
      (∀ x y, x < s.params.screenW → y < s.params.screenH → t.fb.pixel x y = s.params.clsFill.byte) ∧
      t.pc = s.pc + 2 ∧ Keeps { fb := true } s t

/-- DXYN toggles exactly the target pixels, VF 1 exactly when one was on before; or raises ReadBounds and does
nothing else (R181). -/
def Obligations.DrawTogglesItsTargets : Prop :=
  ∀ (x y : Reg) (n : BitVec 4) (s : State), EncodedAs 0xF000 0xD000 (.drw x y n) ∧
    ((n = 0 ∨ s.i.toNat + n.toNat - 1 < 4095) →
      ∃ t, exec (.drw x y n) s = .next t ∧
        (∀ px py, DrawTarget s x y n px py → t.fb.pixel px py = s.fb.pixel px py ^^^ 255) ∧
        (∀ px py, ¬ DrawTarget s x y n px py → t.fb.pixel px py = s.fb.pixel px py) ∧
        ((∃ px py, DrawTarget s x y n px py ∧ s.fb.pixel px py = 255) → t.readReg 15 = 1) ∧
        ((∀ px py, DrawTarget s x y n px py → s.fb.pixel px py ≠ 255) → t.readReg 15 = 0) ∧
        t.pc = s.pc + 2 ∧ Keeps { regs := [15], fb := true } s t) ∧
    (n ≠ 0 → 4095 ≤ s.i.toNat + n.toNat - 1 →
      ∃ t, exec (.drw x y n) s = .next t ∧
        FaultTaken 2 (BitVec.ofNat 16 (max s.i.toNat 4095)) (encode (.drw x y n)) s t)

/-- Drawing the same sprite twice at the same place restores every pixel; a first draw on off pixels makes the
second collide (R181, 95_test_vectors.md S10). -/
def Obligations.DrawTwiceRestoresTheScreen : Prop :=
  ∀ (x y : Reg) (n : BitVec 4) (s t u : State), x ≠ 15 → y ≠ 15 → (n = 0 ∨ s.i.toNat + n.toNat - 1 < 4095) →
    exec (.drw x y n) s = .next t → exec (.drw x y n) t = .next u →
    (∀ px py, u.fb.pixel px py = s.fb.pixel px py) ∧
    ((∃ px py, DrawTarget s x y n px py) → (∀ px py, DrawTarget s x y n px py → s.fb.pixel px py ≠ 255) →
      t.readReg 15 = 0 ∧ u.readReg 15 = 1)

/-- FbRead inside the screen puts out FB[y][x], 0 or 255, and changes no state; outside it cannot be presented
(R215, 60_exceptions.md section 5). -/
def Obligations.FbReadGivesThePixel : Prop :=
  ∀ (s : State) (x y : Nat), s.started = true →
    (x < s.params.screenW → y < s.params.screenH →
      perform (.fbRead x y) s = .next { s with out := .fbByte (s.fb.pixel x y) :: s.out } ∧
        (s.fb.pixel x y = 0 ∨ s.fb.pixel x y = 255)) ∧
    (¬ (x < s.params.screenW ∧ y < s.params.screenH) →
      perform (.fbRead x y) s = .refused (.fbReadOffScreen x y))

/-- Reset gives every piece of state its reset value and leaves the keys alone (R240). -/
def Obligations.ResetGivesTheResetValues : Prop :=
  ∀ s : State, ∃ t, perform .reset s = .next t ∧ (∀ a, t.readByte a = 0) ∧ (∀ r, t.readReg r = 0) ∧ t.i = 0 ∧
    t.pc = 0x200 ∧ t.dt = 0 ∧ t.st = 0 ∧ t.stack = [] ∧ (∀ x y, t.fb.pixel x y = 0) ∧ t.fault.valid = false ∧
    t.key = s.key

/-- The model's reset state holds every value the spec states for reset (R37, R38, 10_state.md section 9). -/
def Obligations.StateResetHoldsTheStatedValues : Prop :=
  (∀ a, State.reset.readByte a = 0) ∧ (∀ r, State.reset.readReg r = 0) ∧ State.reset.i = 0 ∧
    State.reset.pc = 0x200 ∧ State.reset.dt = 0 ∧ State.reset.st = 0 ∧ State.reset.stack = [] ∧
    (∀ x y, State.reset.fb.pixel x y = 0) ∧ State.reset.fault.valid = false

/-- Reset from any two states with the same keys gives the same state of the block (R243, R244). -/
def Obligations.ResetForgetsThePreviousRun : Prop :=
  ∀ s s' t t' : State, s.key = s'.key → s.params = s'.params → perform .reset s = .next t →
    perform .reset s' = .next t' →
    t.mem = t'.mem ∧ t.v = t'.v ∧ t.i = t'.i ∧ t.pc = t'.pc ∧ t.dt = t'.dt ∧ t.st = t'.st ∧ t.stack = t'.stack ∧
      t.key = t'.key ∧ t.fb = t'.fb ∧ t.fault.valid = t'.fault.valid

/-- Before the first Reset or Load (U9, log 11) only those act, and each leaves all but the keys defined (R244,
93_implementation_defined.md U9). -/
def Obligations.NothingButResetAndLoadBeforeTheFirst : Prop :=
  ∀ s : State, s.started = false →
    (∀ tr, tr ≠ .reset → tr ≠ .loadFailed → (∀ rom, tr ≠ .load rom) → perform tr s = .refused .beforeReset) ∧
    ∀ tr : Transaction, (tr = .reset ∨ tr = .loadFailed ∨ ∃ rom, tr = .load rom) →
      ∃ t, perform tr s = .next t ∧ t.started = true ∧
        ∀ s' : State, s'.started = false → ∃ t', perform tr s' = .next t' ∧
          t.mem = t'.mem ∧ t.v = t'.v ∧ t.i = t'.i ∧ t.pc = t'.pc ∧ t.dt = t'.dt ∧ t.st = t'.st ∧ t.stack = t'.stack ∧
          t.fb = t'.fb ∧ t.fault.valid = t'.fault.valid

/-- After any step a run has begun, and once it has, a step stops only at a framebuffer read outside the screen
(R100, R210, R215, R217, R244). -/
def Obligations.RunOnceBegunGoesOn : Prop :=
  (∀ s t : State, step s = .next t → t.started = true) ∧
    ∀ s : State, s.started = true →
      (∃ t, step s = .next t) ∨
        ∃ x y rest, s.pending = .fbRead x y :: rest ∧ ¬ (x < s.params.screenW ∧ y < s.params.screenH) ∧
          step s = .refused (.fbReadOffScreen x y)

/-- Load resets, copies at most 3583 ROM bytes to 0x200 upward, leaves the rest of memory zero and reports 1 (R241).
-/
def Obligations.LoadCopiesTheRom : Prop :=
  ∀ (s : State) (rom : List Byte), ∃ t r, perform (.load rom) s = .next t ∧ perform .reset s = .next r ∧
    (∀ j (h : j < rom.length), j < 3583 → t.readByte (0x200 + j) = rom[j]) ∧
    (∀ a, a < 0x200 ∨ 0x200 + min rom.length 3583 ≤ a → t.readByte a = 0) ∧
    t.out = .loadOk true :: s.out ∧ t = { r with mem := t.mem, out := t.out }

/-- A failed Load is a Reset that reports 0 (R242, 70_reset_and_hazards.md section 1). -/
def Obligations.FailedLoadLeavesTheResetState : Prop :=
  ∀ s : State, ∃ r, perform .reset s = .next r ∧ (∀ a, r.readByte a = 0) ∧ r.params = s.params ∧ r.draws = s.draws ∧
    r.pending = s.pending ∧ r.out = s.out ∧ perform .loadFailed s = .next { r with out := .loadOk false :: s.out }

/-- After Load the first fetch reads the first two ROM bytes, zero where the ROM ends (R241, R246). -/
def Obligations.FirstFetchAfterLoad : Prop :=
  ∀ (s : State) (rom : List Byte), ∃ t, perform (.load rom) s = .next t ∧ t.pc = 0x200 ∧ t.fault.valid = false ∧
    t.fetch = some (rom.getD 0 0 ++ rom.getD 1 0)

/-- A pending frame (log 2) is the sixteen keys, a tick, and a cycle, in that order (R217, R220). -/
def Obligations.FrameIsKeysTickCycle : Prop :=
  ∀ (keys : Vector Bool 16) (s : State) (rest : List Transaction),
    s.started = true → s.pending = frameTransactions keys [] ++ rest →
    ∃ t, perform .tick { s with key := keys, pending := rest } = .next t ∧ core.run 18 s = cycle t

/-- A state whose next instruction is JP self is a fixed point of Cycle (R248, R110). -/
def Obligations.JumpToSelfIsAFixedPoint : Prop :=
  ∀ s : State, AtEnd s → cycle s = .next s

/-- Every step keeps memory, framebuffer, stack and PC inside the bounds the spec gives them (R23, R29, R30, R32,
R35, R200). -/
def Obligations.StepKeepsTheInvariant : Prop :=
  ∀ s t : State, Inv s → step s = .next t → Inv t

/-- On a screen of whole blocks every step keeps every aligned 10 by 10 block uniform (R33, R182). -/
def Obligations.BlocksStayUniform : Prop :=
  ∀ s t : State, WholeBlocks s.params → BlocksUniform s → step s = .next t →
    t.params = s.params ∧ BlocksUniform t

/-- The reset state meets the invariants (R33, R37, R6). -/
def Obligations.InvariantsHoldAtReset : Prop :=
  Inv State.reset ∧ WholeBlocks State.reset.params ∧ BlocksUniform State.reset

/-- Which instructions change I, DT, ST and the stack (R28, R29, R227). -/
def Obligations.SpecialRegistersWrittenOnlyByTheirInstructions : Prop :=
  ∀ (i : Instr) (s t : State), exec i s = .next t →
    (t.i ≠ s.i →
      match i with
      | .ldI _ | .addI _ | .ldF _ | .storeRegs _ | .loadRegs _ => True
      | _ => False) ∧
    (t.dt ≠ s.dt → ∃ x, i = .ldDtVx x) ∧ (t.st ≠ s.st → ∃ x, i = .ldStVx x) ∧
    (t.stack ≠ s.stack → i = .ret ∨ ∃ nnn, i = .call nnn) ∧
    t.out = s.out ∧ t.pending = s.pending ∧ t.params = s.params ∧ t.started = s.started

/-- No instruction depends on ST (R27, R28, R172). -/
def Obligations.NoInstructionReadsTheSoundTimer : Prop :=
  ∀ (i : Instr) (s : State) (v : Byte), (∀ x, i ≠ .ldStVx x) →
    ∃ t, exec i s = .next t ∧ t.st = s.st ∧ exec i { s with st := v } = .next { t with st := v }

/-- How each instruction moves PC (R22, R23, R101, R250). -/
def Obligations.ProgramCounterMoves : Prop :=
  ∀ (i : Instr) (s t : State), s.fault.valid = false → exec i s = .next t →
    (t.fault.valid = true → t.pc = s.pc) ∧
    (t.fault.valid = false →
      match i with
      | .jp _ | .call _ | .ret | .jpV0 _ => True
      | .seImm _ _ | .sneImm _ _ | .seReg _ _ | .sneReg _ _ | .skp _ | .sknp _ => t.pc = s.pc + 2 ∨ t.pc = s.pc + 4
      | .ldVxK _ => t.pc = s.pc ∨ t.pc = s.pc + 2
      | _ => t.pc = s.pc + 2)
end

