-- ==== Sys2Proof/Laws/Cells.lean ====
section
/-! SUPPORT. The laws of a sparse store. The read laws hold of every list, canonical or not. -/

namespace Sys2Proof.Machine

variable {α : Type}

@[simp] theorem Cells.read_nil (bg : α) (k : Nat) : Cells.read bg [] k = bg := rfl

/-- A key below every listed key is not listed. -/
theorem Cells.read_below (bg : α) {l : List (Nat × α)} {k : Nat} (h : ∀ p ∈ l.head?, k < p.1) :
    Cells.read bg l k = bg := by
  cases l with
  | nil => rfl
  | cons p r =>
    have hk : k < p.1 := h p (by simp)
    simp [Cells.read, show ¬ p.1 < k by omega, show ¬ p.1 = k by omega]

theorem Cells.head_dropWhile_gt {l : List (Nat × α)} {k : Nat} :
    ∀ p ∈ (l.dropWhile (fun p => decide (p.1 ≤ k))).head?, k < p.1 := by
  intro p hp
  induction l with
  | nil => simp at hp
  | cons q r ih =>
    by_cases hq : q.1 ≤ k
    · exact ih (by simpa [List.dropWhile, hq] using hp)
    · simp only [List.dropWhile, hq, decide_false, List.head?_cons, Option.mem_def, Option.some.injEq] at hp
      subst hp
      omega

/-- Dropping the leading keys up to `k` does not change what a greater key reads as. -/
theorem Cells.read_dropWhile (bg : α) {l : List (Nat × α)} {k k' : Nat} (h : k < k') :
    Cells.read bg (l.dropWhile (fun p => decide (p.1 ≤ k))) k' = Cells.read bg l k' := by
  induction l with
  | nil => rfl
  | cons q r ih =>
    by_cases hq : q.1 ≤ k
    · simpa [List.dropWhile, hq, Cells.read, show q.1 < k' by omega] using ih
    · simp [List.dropWhile, hq]

variable [DecidableEq α]

/-- A read after a write to the same key gives the value written. -/
@[simp] theorem Cells.read_write_same (bg : α) (l : List (Nat × α)) (k : Nat) (v : α) :
    Cells.read bg (Cells.write bg l k v) k = v := by
  have put : ∀ r : List (Nat × α), (∀ p ∈ r.head?, k < p.1) → Cells.read bg (Cells.put bg k v r) k = v := by
    intro r hr
    by_cases hv : v = bg
    · simpa [Cells.put, hv] using Cells.read_below bg hr
    · simp [Cells.put, hv, Cells.read]
  induction l with
  | nil => exact put [] (by simp)
  | cons q r ih =>
    by_cases hq : q.1 < k
    · simpa [Cells.write, hq, Cells.read] using ih
    · simpa only [Cells.write, hq, if_false] using put _ Cells.head_dropWhile_gt

/-- A write leaves every other key alone. -/
theorem Cells.read_write_ne (bg : α) (l : List (Nat × α)) {k k' : Nat} (v : α) (h : k' ≠ k) :
    Cells.read bg (Cells.write bg l k v) k' = Cells.read bg l k' := by
  have put_gt : ∀ r : List (Nat × α), k < k' → Cells.read bg (Cells.put bg k v r) k' = Cells.read bg r k' := by
    intro r hk
    by_cases hv : v = bg <;> simp [Cells.put, hv, Cells.read, hk]
  have put_lt : ∀ r : List (Nat × α), k' < k → (∀ p ∈ r.head?, k < p.1) →
      Cells.read bg (Cells.put bg k v r) k' = bg := by
    intro r hk hr
    refine Cells.read_below bg (fun p hp => ?_)
    by_cases hv : v = bg
    · have := hr p (by simpa [Cells.put, hv] using hp)
      omega
    · simp only [Cells.put, hv, if_false, List.head?_cons, Option.mem_def, Option.some.injEq] at hp
      subst hp
      exact hk
  induction l with
  | nil =>
    rcases Nat.lt_or_gt_of_ne h with hk | hk
    · simpa [Cells.write] using put_lt [] hk (by simp)
    · simpa [Cells.write] using put_gt [] hk
  | cons q r ih =>
    by_cases hq : q.1 < k
    · simp only [Cells.write, hq, if_true, Cells.read, ih]
    · simp only [Cells.write, hq, if_false]
      rcases Nat.lt_or_gt_of_ne h with hk | hk
      · rw [put_lt _ hk Cells.head_dropWhile_gt]
        exact (Cells.read_below bg (by simp; omega)).symm
      · rw [put_gt _ hk, Cells.read_dropWhile bg hk]

/-- Both read laws at once. -/
theorem Cells.read_write (bg : α) (l : List (Nat × α)) (k k' : Nat) (v : α) :
    Cells.read bg (Cells.write bg l k v) k' = if k' = k then v else Cells.read bg l k' := by
  split
  · next h => subst h; exact Cells.read_write_same bg l k' v
  · next h => exact Cells.read_write_ne bg l v h

/-- What a written store lists: the pair written and pairs it listed before. -/
theorem Cells.mem_write (bg : α) {l : List (Nat × α)} {k : Nat} {v : α} {p : Nat × α}
    (h : p ∈ Cells.write bg l k v) : (p = (k, v) ∧ v ≠ bg) ∨ p ∈ l := by
  have put : ∀ r : List (Nat × α), p ∈ Cells.put bg k v r → (p = (k, v) ∧ v ≠ bg) ∨ p ∈ r := by
    intro r hr
    by_cases hv : v = bg
    · exact .inr (by simpa [Cells.put, hv] using hr)
    · simpa [Cells.put, hv] using hr
  induction l with
  | nil => exact put [] h
  | cons q r ih =>
    by_cases hq : q.1 < k
    · simp only [Cells.write, hq, if_true, List.mem_cons] at h ⊢
      rcases h with h | h
      · exact .inr (.inl h)
      · exact (ih h).imp_right .inr
    · simp only [Cells.write, hq, if_false] at h
      exact (put _ h).imp_right (fun h => (List.dropWhile_sublist _).subset h)

/-- A write keeps the canonical form. -/
theorem Cells.wf_write {bg : α} {l : List (Nat × α)} (h : Cells.Wf bg l) (k : Nat) (v : α) :
    Cells.Wf bg (Cells.write bg l k v) := by
  refine ⟨?_, fun p hp => ?_⟩
  · obtain ⟨hs, -⟩ := h
    have put : ∀ r : List (Nat × α), r.Pairwise (fun p q => p.1 < q.1) → (∀ p ∈ r, k < p.1) →
        (Cells.put bg k v r).Pairwise (fun p q => p.1 < q.1) := by
      intro r hr hk
      by_cases hv : v = bg
      · simpa [Cells.put, hv] using hr
      · simpa [Cells.put, hv] using ⟨fun a b hab => hk (a, b) hab, hr⟩
    induction l with
    | nil => exact put [] .nil (by simp)
    | cons q r ih =>
      obtain ⟨hq, hr⟩ := List.pairwise_cons.1 hs
      by_cases hk : q.1 < k
      · simp only [Cells.write, hk, if_true]
        refine List.pairwise_cons.2 ⟨fun p hp => ?_, ih hr⟩
        rcases Cells.mem_write bg hp with ⟨rfl, -⟩ | hp
        · exact hk
        · exact hq p hp
      · simp only [Cells.write, hk, if_false]
        have hd := hs.sublist (List.dropWhile_sublist (fun p : Nat × α => decide (p.1 ≤ k)))
        refine put _ hd (fun p hp => ?_)
        have hh := Cells.head_dropWhile_gt (l := q :: r) (k := k)
        revert hd hp hh
        generalize (q :: r).dropWhile _ = d
        intro hd hp hh
        cases d with
        | nil => simp at hp
        | cons e d =>
          have he := hh e (by simp)
          rcases List.mem_cons.1 hp with rfl | hp
          · exact he
          · exact Nat.lt_trans he ((List.pairwise_cons.1 hd).1 p hp)
  · rcases Cells.mem_write bg hp with ⟨rfl, hv⟩ | hp
    · exact hv
    · exact h.2 p hp

end Sys2Proof.Machine
end

