-- ==== Sys2Proof/Laws/Decode.lean ====
section
/-! SUPPORT. The fields of an encoded word, format by format (30_encoding.md R81, R83). -/

namespace Sys2Proof

@[simp] theorem regOf_regBits (x : Reg) : regOf (regBits x) = x := by
  revert x; decide

@[simp] theorem regBits_regOf (b : BitVec 4) : regBits (regOf b) = b := by
  revert b; decide

/-! ## Format `NNN` -/

@[simp] theorem nibble_wordNNN_family (f : BitVec 4) (nnn : BitVec 12) : nibble (wordNNN f nnn) 3 = f :=
  BitVec.extractLsb'_append_eq_left

@[simp] theorem fieldNNN_wordNNN (f : BitVec 4) (nnn : BitVec 12) : fieldNNN (wordNNN f nnn) = nnn :=
  BitVec.extractLsb'_append_eq_right

/-! ## Format `XNN` -/

@[simp] theorem nibble_wordXNN_family (f : BitVec 4) (x : Reg) (nn : Byte) : nibble (wordXNN f x nn) 3 = f :=
  (BitVec.extractLsb'_append_eq_of_le (by omega)).trans BitVec.extractLsb'_append_eq_left

@[simp] theorem nibble_wordXNN_x (f : BitVec 4) (x : Reg) (nn : Byte) :
    nibble (wordXNN f x nn) 2 = regBits x :=
  (BitVec.extractLsb'_append_eq_of_le (by omega)).trans BitVec.extractLsb'_append_eq_right

@[simp] theorem fieldNN_wordXNN (f : BitVec 4) (x : Reg) (nn : Byte) : fieldNN (wordXNN f x nn) = nn :=
  BitVec.extractLsb'_append_eq_right

/-! ## Format `XYN` -/

@[simp] theorem nibble_wordXYN_family (f : BitVec 4) (x y : Reg) (n : BitVec 4) :
    nibble (wordXYN f x y n) 3 = f :=
  ((BitVec.extractLsb'_append_eq_of_le (by omega)).trans (BitVec.extractLsb'_append_eq_of_le (by omega))).trans
    BitVec.extractLsb'_append_eq_left

@[simp] theorem nibble_wordXYN_x (f : BitVec 4) (x y : Reg) (n : BitVec 4) :
    nibble (wordXYN f x y n) 2 = regBits x :=
  ((BitVec.extractLsb'_append_eq_of_le (by omega)).trans (BitVec.extractLsb'_append_eq_of_le (by omega))).trans
    BitVec.extractLsb'_append_eq_right

@[simp] theorem nibble_wordXYN_y (f : BitVec 4) (x y : Reg) (n : BitVec 4) :
    nibble (wordXYN f x y n) 1 = regBits y :=
  (BitVec.extractLsb'_append_eq_of_le (by omega)).trans BitVec.extractLsb'_append_eq_right

@[simp] theorem nibble_wordXYN_n (f : BitVec 4) (x y : Reg) (n : BitVec 4) :
    nibble (wordXYN f x y n) 0 = n :=
  BitVec.extractLsb'_append_eq_right

/-- The two bytes of a word, put together again, are the word (R53, R80). -/
@[simp] theorem wordOfBytes_bytes (w : Word) :
    wordOfBytes (w.extractLsb' 8 8) (w.extractLsb' 0 8) = w := by
  apply BitVec.eq_of_toNat_eq
  have := w.isLt
  simp only [wordOfBytes, BitVec.toNat_append, BitVec.extractLsb'_toNat, Nat.shiftRight_eq_div_pow]
  rw [← Nat.shiftLeft_add_eq_or_of_lt (by omega), Nat.shiftLeft_eq]
  omega

end Sys2Proof
end

