-- ==== Sys2Proof/Laws/State.lean ====
section
/-! SUPPORT. The fields of a state after each update of it: one lemma per field and update, true by unfolding. -/

namespace Sys2Proof.Machine

/-! ## `setReg` -/

@[simp] theorem State.setReg_mem (s : State) (x : Reg) (b : Byte) : (s.setReg x b).mem = s.mem := rfl
@[simp] theorem State.setReg_v (s : State) (x : Reg) (b : Byte) : (s.setReg x b).v = s.v.set x.val b := rfl
@[simp] theorem State.setReg_i (s : State) (x : Reg) (b : Byte) : (s.setReg x b).i = s.i := rfl
@[simp] theorem State.setReg_pc (s : State) (x : Reg) (b : Byte) : (s.setReg x b).pc = s.pc := rfl
@[simp] theorem State.setReg_dt (s : State) (x : Reg) (b : Byte) : (s.setReg x b).dt = s.dt := rfl
@[simp] theorem State.setReg_st (s : State) (x : Reg) (b : Byte) : (s.setReg x b).st = s.st := rfl
@[simp] theorem State.setReg_stack (s : State) (x : Reg) (b : Byte) : (s.setReg x b).stack = s.stack := rfl
@[simp] theorem State.setReg_key (s : State) (x : Reg) (b : Byte) : (s.setReg x b).key = s.key := rfl
@[simp] theorem State.setReg_fb (s : State) (x : Reg) (b : Byte) : (s.setReg x b).fb = s.fb := rfl
@[simp] theorem State.setReg_fault (s : State) (x : Reg) (b : Byte) : (s.setReg x b).fault = s.fault := rfl
@[simp] theorem State.setReg_params (s : State) (x : Reg) (b : Byte) : (s.setReg x b).params = s.params := rfl
@[simp] theorem State.setReg_draws (s : State) (x : Reg) (b : Byte) : (s.setReg x b).draws = s.draws := rfl
@[simp] theorem State.setReg_pending (s : State) (x : Reg) (b : Byte) : (s.setReg x b).pending = s.pending := rfl
@[simp] theorem State.setReg_started (s : State) (x : Reg) (b : Byte) : (s.setReg x b).started = s.started := rfl
@[simp] theorem State.setReg_out (s : State) (x : Reg) (b : Byte) : (s.setReg x b).out = s.out := rfl

/-! ## `setFlag` -/

@[simp] theorem State.setFlag_mem (s : State) (c : Bool) : (s.setFlag c).mem = s.mem := rfl
@[simp] theorem State.setFlag_v (s : State) (c : Bool) : (s.setFlag c).v = s.v.set 15 (flagByte c) := rfl
@[simp] theorem State.setFlag_i (s : State) (c : Bool) : (s.setFlag c).i = s.i := rfl
@[simp] theorem State.setFlag_pc (s : State) (c : Bool) : (s.setFlag c).pc = s.pc := rfl
@[simp] theorem State.setFlag_dt (s : State) (c : Bool) : (s.setFlag c).dt = s.dt := rfl
@[simp] theorem State.setFlag_st (s : State) (c : Bool) : (s.setFlag c).st = s.st := rfl
@[simp] theorem State.setFlag_stack (s : State) (c : Bool) : (s.setFlag c).stack = s.stack := rfl
@[simp] theorem State.setFlag_key (s : State) (c : Bool) : (s.setFlag c).key = s.key := rfl
@[simp] theorem State.setFlag_fb (s : State) (c : Bool) : (s.setFlag c).fb = s.fb := rfl
@[simp] theorem State.setFlag_fault (s : State) (c : Bool) : (s.setFlag c).fault = s.fault := rfl
@[simp] theorem State.setFlag_params (s : State) (c : Bool) : (s.setFlag c).params = s.params := rfl
@[simp] theorem State.setFlag_draws (s : State) (c : Bool) : (s.setFlag c).draws = s.draws := rfl
@[simp] theorem State.setFlag_pending (s : State) (c : Bool) : (s.setFlag c).pending = s.pending := rfl
@[simp] theorem State.setFlag_started (s : State) (c : Bool) : (s.setFlag c).started = s.started := rfl
@[simp] theorem State.setFlag_out (s : State) (c : Bool) : (s.setFlag c).out = s.out := rfl

/-! ## `setResultFlag` -/

@[simp] theorem State.setResultFlag_mem (s : State) (x : Reg) (r : Byte) (c : Bool) :
    (s.setResultFlag x r c).mem = s.mem :=
  rfl
@[simp] theorem State.setResultFlag_v (s : State) (x : Reg) (r : Byte) (c : Bool) :
    (s.setResultFlag x r c).v = (s.v.set x.val r).set 15 (flagByte c) :=
  rfl
@[simp] theorem State.setResultFlag_i (s : State) (x : Reg) (r : Byte) (c : Bool) :
    (s.setResultFlag x r c).i = s.i :=
  rfl
@[simp] theorem State.setResultFlag_pc (s : State) (x : Reg) (r : Byte) (c : Bool) :
    (s.setResultFlag x r c).pc = s.pc :=
  rfl
@[simp] theorem State.setResultFlag_dt (s : State) (x : Reg) (r : Byte) (c : Bool) :
    (s.setResultFlag x r c).dt = s.dt :=
  rfl
@[simp] theorem State.setResultFlag_st (s : State) (x : Reg) (r : Byte) (c : Bool) :
    (s.setResultFlag x r c).st = s.st :=
  rfl
@[simp] theorem State.setResultFlag_stack (s : State) (x : Reg) (r : Byte) (c : Bool) :
    (s.setResultFlag x r c).stack = s.stack :=
  rfl
@[simp] theorem State.setResultFlag_key (s : State) (x : Reg) (r : Byte) (c : Bool) :
    (s.setResultFlag x r c).key = s.key :=
  rfl
@[simp] theorem State.setResultFlag_fb (s : State) (x : Reg) (r : Byte) (c : Bool) :
    (s.setResultFlag x r c).fb = s.fb :=
  rfl
@[simp] theorem State.setResultFlag_fault (s : State) (x : Reg) (r : Byte) (c : Bool) :
    (s.setResultFlag x r c).fault = s.fault :=
  rfl
@[simp] theorem State.setResultFlag_params (s : State) (x : Reg) (r : Byte) (c : Bool) :
    (s.setResultFlag x r c).params = s.params :=
  rfl
@[simp] theorem State.setResultFlag_draws (s : State) (x : Reg) (r : Byte) (c : Bool) :
    (s.setResultFlag x r c).draws = s.draws :=
  rfl
@[simp] theorem State.setResultFlag_pending (s : State) (x : Reg) (r : Byte) (c : Bool) :
    (s.setResultFlag x r c).pending = s.pending :=
  rfl
@[simp] theorem State.setResultFlag_started (s : State) (x : Reg) (r : Byte) (c : Bool) :
    (s.setResultFlag x r c).started = s.started :=
  rfl
@[simp] theorem State.setResultFlag_out (s : State) (x : Reg) (r : Byte) (c : Bool) :
    (s.setResultFlag x r c).out = s.out :=
  rfl

/-! ## `setKey` -/

@[simp] theorem State.setKey_mem (s : State) (k : Key) (b : Bool) : (s.setKey k b).mem = s.mem := rfl
@[simp] theorem State.setKey_v (s : State) (k : Key) (b : Bool) : (s.setKey k b).v = s.v := rfl
@[simp] theorem State.setKey_i (s : State) (k : Key) (b : Bool) : (s.setKey k b).i = s.i := rfl
@[simp] theorem State.setKey_pc (s : State) (k : Key) (b : Bool) : (s.setKey k b).pc = s.pc := rfl
@[simp] theorem State.setKey_dt (s : State) (k : Key) (b : Bool) : (s.setKey k b).dt = s.dt := rfl
@[simp] theorem State.setKey_st (s : State) (k : Key) (b : Bool) : (s.setKey k b).st = s.st := rfl
@[simp] theorem State.setKey_stack (s : State) (k : Key) (b : Bool) : (s.setKey k b).stack = s.stack := rfl
@[simp] theorem State.setKey_key (s : State) (k : Key) (b : Bool) : (s.setKey k b).key = s.key.set k.val b := rfl
@[simp] theorem State.setKey_fb (s : State) (k : Key) (b : Bool) : (s.setKey k b).fb = s.fb := rfl
@[simp] theorem State.setKey_fault (s : State) (k : Key) (b : Bool) : (s.setKey k b).fault = s.fault := rfl
@[simp] theorem State.setKey_params (s : State) (k : Key) (b : Bool) : (s.setKey k b).params = s.params := rfl
@[simp] theorem State.setKey_draws (s : State) (k : Key) (b : Bool) : (s.setKey k b).draws = s.draws := rfl
@[simp] theorem State.setKey_pending (s : State) (k : Key) (b : Bool) : (s.setKey k b).pending = s.pending := rfl
@[simp] theorem State.setKey_started (s : State) (k : Key) (b : Bool) : (s.setKey k b).started = s.started := rfl
@[simp] theorem State.setKey_out (s : State) (k : Key) (b : Bool) : (s.setKey k b).out = s.out := rfl

/-! ## `advance` -/

@[simp] theorem State.advance_mem (s : State) : (s.advance).mem = s.mem := rfl
@[simp] theorem State.advance_v (s : State) : (s.advance).v = s.v := rfl
@[simp] theorem State.advance_i (s : State) : (s.advance).i = s.i := rfl
@[simp] theorem State.advance_pc (s : State) : (s.advance).pc = s.pc + 2 := rfl
@[simp] theorem State.advance_dt (s : State) : (s.advance).dt = s.dt := rfl
@[simp] theorem State.advance_st (s : State) : (s.advance).st = s.st := rfl
@[simp] theorem State.advance_stack (s : State) : (s.advance).stack = s.stack := rfl
@[simp] theorem State.advance_key (s : State) : (s.advance).key = s.key := rfl
@[simp] theorem State.advance_fb (s : State) : (s.advance).fb = s.fb := rfl
@[simp] theorem State.advance_fault (s : State) : (s.advance).fault = s.fault := rfl
@[simp] theorem State.advance_params (s : State) : (s.advance).params = s.params := rfl
@[simp] theorem State.advance_draws (s : State) : (s.advance).draws = s.draws := rfl
@[simp] theorem State.advance_pending (s : State) : (s.advance).pending = s.pending := rfl
@[simp] theorem State.advance_started (s : State) : (s.advance).started = s.started := rfl
@[simp] theorem State.advance_out (s : State) : (s.advance).out = s.out := rfl

/-! ## `rewind` -/

@[simp] theorem State.rewind_mem (s : State) : (s.rewind).mem = s.mem := rfl
@[simp] theorem State.rewind_v (s : State) : (s.rewind).v = s.v := rfl
@[simp] theorem State.rewind_i (s : State) : (s.rewind).i = s.i := rfl
@[simp] theorem State.rewind_pc (s : State) : (s.rewind).pc = s.pc - 2 := rfl
@[simp] theorem State.rewind_dt (s : State) : (s.rewind).dt = s.dt := rfl
@[simp] theorem State.rewind_st (s : State) : (s.rewind).st = s.st := rfl
@[simp] theorem State.rewind_stack (s : State) : (s.rewind).stack = s.stack := rfl
@[simp] theorem State.rewind_key (s : State) : (s.rewind).key = s.key := rfl
@[simp] theorem State.rewind_fb (s : State) : (s.rewind).fb = s.fb := rfl
@[simp] theorem State.rewind_fault (s : State) : (s.rewind).fault = s.fault := rfl
@[simp] theorem State.rewind_params (s : State) : (s.rewind).params = s.params := rfl
@[simp] theorem State.rewind_draws (s : State) : (s.rewind).draws = s.draws := rfl
@[simp] theorem State.rewind_pending (s : State) : (s.rewind).pending = s.pending := rfl
@[simp] theorem State.rewind_started (s : State) : (s.rewind).started = s.started := rfl
@[simp] theorem State.rewind_out (s : State) : (s.rewind).out = s.out := rfl

/-! ## `addIndex` -/

@[simp] theorem State.addIndex_mem (s : State) (n : Nat) : (s.addIndex n).mem = s.mem := rfl
@[simp] theorem State.addIndex_v (s : State) (n : Nat) : (s.addIndex n).v = s.v := rfl
@[simp] theorem State.addIndex_i (s : State) (n : Nat) : (s.addIndex n).i = BitVec.ofNat 16 (s.i.toNat + n) := rfl
@[simp] theorem State.addIndex_pc (s : State) (n : Nat) : (s.addIndex n).pc = s.pc := rfl
@[simp] theorem State.addIndex_dt (s : State) (n : Nat) : (s.addIndex n).dt = s.dt := rfl
@[simp] theorem State.addIndex_st (s : State) (n : Nat) : (s.addIndex n).st = s.st := rfl
@[simp] theorem State.addIndex_stack (s : State) (n : Nat) : (s.addIndex n).stack = s.stack := rfl
@[simp] theorem State.addIndex_key (s : State) (n : Nat) : (s.addIndex n).key = s.key := rfl
@[simp] theorem State.addIndex_fb (s : State) (n : Nat) : (s.addIndex n).fb = s.fb := rfl
@[simp] theorem State.addIndex_fault (s : State) (n : Nat) : (s.addIndex n).fault = s.fault := rfl
@[simp] theorem State.addIndex_params (s : State) (n : Nat) : (s.addIndex n).params = s.params := rfl
@[simp] theorem State.addIndex_draws (s : State) (n : Nat) : (s.addIndex n).draws = s.draws := rfl
@[simp] theorem State.addIndex_pending (s : State) (n : Nat) : (s.addIndex n).pending = s.pending := rfl
@[simp] theorem State.addIndex_started (s : State) (n : Nat) : (s.addIndex n).started = s.started := rfl
@[simp] theorem State.addIndex_out (s : State) (n : Nat) : (s.addIndex n).out = s.out := rfl

/-! ## `raise` -/

@[simp] theorem State.raise_mem (s : State) (c : Cause) (info opcode : Word) :
    (s.raise c info opcode).mem = s.mem :=
  rfl
@[simp] theorem State.raise_v (s : State) (c : Cause) (info opcode : Word) : (s.raise c info opcode).v = s.v := rfl
@[simp] theorem State.raise_i (s : State) (c : Cause) (info opcode : Word) : (s.raise c info opcode).i = s.i := rfl
@[simp] theorem State.raise_pc (s : State) (c : Cause) (info opcode : Word) : (s.raise c info opcode).pc = s.pc := rfl
@[simp] theorem State.raise_dt (s : State) (c : Cause) (info opcode : Word) : (s.raise c info opcode).dt = s.dt := rfl
@[simp] theorem State.raise_st (s : State) (c : Cause) (info opcode : Word) : (s.raise c info opcode).st = s.st := rfl
@[simp] theorem State.raise_stack (s : State) (c : Cause) (info opcode : Word) :
    (s.raise c info opcode).stack = s.stack :=
  rfl
@[simp] theorem State.raise_key (s : State) (c : Cause) (info opcode : Word) :
    (s.raise c info opcode).key = s.key :=
  rfl
@[simp] theorem State.raise_fb (s : State) (c : Cause) (info opcode : Word) : (s.raise c info opcode).fb = s.fb := rfl
@[simp] theorem State.raise_fault (s : State) (c : Cause) (info opcode : Word) :
    (s.raise c info opcode).fault = { valid := true, cause := c.code, pc := s.pc, opcode := opcode, info := info } :=
  rfl
@[simp] theorem State.raise_params (s : State) (c : Cause) (info opcode : Word) :
    (s.raise c info opcode).params = s.params :=
  rfl
@[simp] theorem State.raise_draws (s : State) (c : Cause) (info opcode : Word) :
    (s.raise c info opcode).draws = s.draws :=
  rfl
@[simp] theorem State.raise_pending (s : State) (c : Cause) (info opcode : Word) :
    (s.raise c info opcode).pending = s.pending :=
  rfl
@[simp] theorem State.raise_started (s : State) (c : Cause) (info opcode : Word) :
    (s.raise c info opcode).started = s.started :=
  rfl
@[simp] theorem State.raise_out (s : State) (c : Cause) (info opcode : Word) :
    (s.raise c info opcode).out = s.out :=
  rfl

/-! ## `emit` -/

@[simp] theorem State.emit_mem (s : State) (e : OutEvent) : (s.emit e).mem = s.mem := rfl
@[simp] theorem State.emit_v (s : State) (e : OutEvent) : (s.emit e).v = s.v := rfl
@[simp] theorem State.emit_i (s : State) (e : OutEvent) : (s.emit e).i = s.i := rfl
@[simp] theorem State.emit_pc (s : State) (e : OutEvent) : (s.emit e).pc = s.pc := rfl
@[simp] theorem State.emit_dt (s : State) (e : OutEvent) : (s.emit e).dt = s.dt := rfl
@[simp] theorem State.emit_st (s : State) (e : OutEvent) : (s.emit e).st = s.st := rfl
@[simp] theorem State.emit_stack (s : State) (e : OutEvent) : (s.emit e).stack = s.stack := rfl
@[simp] theorem State.emit_key (s : State) (e : OutEvent) : (s.emit e).key = s.key := rfl
@[simp] theorem State.emit_fb (s : State) (e : OutEvent) : (s.emit e).fb = s.fb := rfl
@[simp] theorem State.emit_fault (s : State) (e : OutEvent) : (s.emit e).fault = s.fault := rfl
@[simp] theorem State.emit_params (s : State) (e : OutEvent) : (s.emit e).params = s.params := rfl
@[simp] theorem State.emit_draws (s : State) (e : OutEvent) : (s.emit e).draws = s.draws := rfl
@[simp] theorem State.emit_pending (s : State) (e : OutEvent) : (s.emit e).pending = s.pending := rfl
@[simp] theorem State.emit_started (s : State) (e : OutEvent) : (s.emit e).started = s.started := rfl
@[simp] theorem State.emit_out (s : State) (e : OutEvent) : (s.emit e).out = e :: s.out := rfl

/-! ## `commitDrawing` -/

@[simp] theorem State.commitDrawing_mem (s : State) (d : Drawing) : (s.commitDrawing d).mem = s.mem := rfl
@[simp] theorem State.commitDrawing_v (s : State) (d : Drawing) :
    (s.commitDrawing d).v = s.v.set 15 (flagByte d.hit) :=
  rfl
@[simp] theorem State.commitDrawing_i (s : State) (d : Drawing) : (s.commitDrawing d).i = s.i := rfl
@[simp] theorem State.commitDrawing_pc (s : State) (d : Drawing) : (s.commitDrawing d).pc = s.pc := rfl
@[simp] theorem State.commitDrawing_dt (s : State) (d : Drawing) : (s.commitDrawing d).dt = s.dt := rfl
@[simp] theorem State.commitDrawing_st (s : State) (d : Drawing) : (s.commitDrawing d).st = s.st := rfl
@[simp] theorem State.commitDrawing_stack (s : State) (d : Drawing) : (s.commitDrawing d).stack = s.stack := rfl
@[simp] theorem State.commitDrawing_key (s : State) (d : Drawing) : (s.commitDrawing d).key = s.key := rfl
@[simp] theorem State.commitDrawing_fb (s : State) (d : Drawing) : (s.commitDrawing d).fb = d.fb := rfl
@[simp] theorem State.commitDrawing_fault (s : State) (d : Drawing) : (s.commitDrawing d).fault = s.fault := rfl
@[simp] theorem State.commitDrawing_params (s : State) (d : Drawing) : (s.commitDrawing d).params = s.params := rfl
@[simp] theorem State.commitDrawing_draws (s : State) (d : Drawing) : (s.commitDrawing d).draws = s.draws := rfl
@[simp] theorem State.commitDrawing_pending (s : State) (d : Drawing) : (s.commitDrawing d).pending = s.pending := rfl
@[simp] theorem State.commitDrawing_started (s : State) (d : Drawing) : (s.commitDrawing d).started = s.started := rfl
@[simp] theorem State.commitDrawing_out (s : State) (d : Drawing) : (s.commitDrawing d).out = s.out := rfl

/-! ## `doReset` -/

@[simp] theorem State.doReset_mem (s : State) : (s.doReset).mem = [] := rfl
@[simp] theorem State.doReset_v (s : State) : (s.doReset).v = Vector.replicate 16 0 := rfl
@[simp] theorem State.doReset_i (s : State) : (s.doReset).i = 0 := rfl
@[simp] theorem State.doReset_pc (s : State) : (s.doReset).pc = BitVec.ofNat 16 Config.loadBase := rfl
@[simp] theorem State.doReset_dt (s : State) : (s.doReset).dt = 0 := rfl
@[simp] theorem State.doReset_st (s : State) : (s.doReset).st = 0 := rfl
@[simp] theorem State.doReset_stack (s : State) : (s.doReset).stack = [] := rfl
@[simp] theorem State.doReset_key (s : State) : (s.doReset).key = s.key := rfl
@[simp] theorem State.doReset_fb (s : State) :
    (s.doReset).fb = Framebuffer.filled s.params.screenW s.params.screenH Config.resetFb :=
  rfl
@[simp] theorem State.doReset_fault (s : State) : (s.doReset).fault = { s.fault with valid := false } := rfl
@[simp] theorem State.doReset_params (s : State) : (s.doReset).params = s.params := rfl
@[simp] theorem State.doReset_draws (s : State) : (s.doReset).draws = s.draws := rfl
@[simp] theorem State.doReset_pending (s : State) : (s.doReset).pending = s.pending := rfl
@[simp] theorem State.doReset_started (s : State) : (s.doReset).started = true := rfl
@[simp] theorem State.doReset_out (s : State) : (s.doReset).out = s.out := rfl

end Sys2Proof.Machine
end

