-- ==== Sys2Proof/Laws/Ops.lean ====
section
/-! SUPPORT. What each shared operation over registers, memory, stack and framebuffer does, said once. -/

namespace Sys2Proof.Machine

/-! ## Registers -/

theorem State.readReg_setReg (s : State) (x r : Reg) (b : Byte) :
    (s.setReg x b).readReg r = if r = x then b else s.readReg r := by
  by_cases h : r = x
  · subst h; simp [State.readReg]
  · simp [State.readReg, h, Fin.val_inj, Ne.symm h]

@[simp] theorem State.readReg_setReg_same (s : State) (x : Reg) (b : Byte) : (s.setReg x b).readReg x = b := by
  simp [State.readReg_setReg]

theorem State.readReg_setReg_ne (s : State) {x r : Reg} (b : Byte) (h : r ≠ x) :
    (s.setReg x b).readReg r = s.readReg r := by
  simp [State.readReg_setReg, h]

@[simp] theorem State.readReg_advance (s : State) (r : Reg) : s.advance.readReg r = s.readReg r := rfl

@[simp] theorem State.readReg_addIndex (s : State) (n : Nat) (r : Reg) : (s.addIndex n).readReg r = s.readReg r := rfl

theorem State.readReg_setFlag (s : State) (c : Bool) (r : Reg) :
    (s.setFlag c).readReg r = if r = regVF then flagByte c else s.readReg r :=
  s.readReg_setReg regVF r (flagByte c)

theorem State.readReg_setResultFlag (s : State) (x r : Reg) (b : Byte) (c : Bool) :
    (s.setResultFlag x b c).readReg r =
      if r = regVF then flagByte c else if r = x then b else s.readReg r := by
  simp [State.setResultFlag, State.readReg_setFlag, State.readReg_setReg]

theorem State.keyHeld_setKey (s : State) (k j : Key) (b : Bool) :
    (s.setKey k b).keyHeld j = if j = k then b else s.keyHeld j := by
  by_cases h : j = k
  · subst h; simp [State.keyHeld]
  · simp [State.keyHeld, h, Fin.val_inj, Ne.symm h]

@[simp] theorem State.readByte_setReg (s : State) (x : Reg) (b : Byte) (a : Nat) :
    (s.setReg x b).readByte a = s.readByte a := rfl

@[simp] theorem State.readByte_advance (s : State) (a : Nat) : s.advance.readByte a = s.readByte a := rfl

/-! ## Main memory -/

theorem Memory.read_write (m : Memory) (a b : Nat) (v : Byte) :
    (m.write a v).read b = if b = a then v else m.read b :=
  Cells.read_write 0 m a b v

/-- A write inside memory keeps the canonical form. -/
theorem Memory.wf_write {m : Memory} (h : m.wf) {a : Nat} (ha : a < Config.memSize) (v : Byte) :
    (m.write a v).wf := by
  refine ⟨Cells.wf_write h.1 a v, fun p hp => ?_⟩
  rcases Cells.mem_write 0 hp with ⟨rfl, -⟩ | hp
  · exact ha
  · exact h.2 p hp

/-- A block write: the listed bytes at their addresses, every other address as before. -/
theorem Memory.read_writeBlock (m : Memory) (a : Nat) (bs : List Byte) (b : Nat) :
    (m.writeBlock a bs).read b = if a ≤ b ∧ b < a + bs.length then bs.getD (b - a) 0 else m.read b := by
  induction bs generalizing m a with
  | nil => simp [Memory.writeBlock]
  | cons c bs ih =>
    rw [Memory.writeBlock, ih, Memory.read_write]
    by_cases h : b = a
    · subst h; simp
    · by_cases h1 : a ≤ b ∧ b < a + (c :: bs).length
      · have h2 : a + 1 ≤ b ∧ b < a + 1 + bs.length := by simp at h1; omega
        rw [if_pos h1, if_pos h2, show b - a = b - (a + 1) + 1 by omega, List.getD_cons_succ]
      · have h2 : ¬ (a + 1 ≤ b ∧ b < a + 1 + bs.length) := by simp at h1; omega
        rw [if_neg h1, if_neg h2, if_neg h]

theorem Memory.wf_writeBlock {m : Memory} (h : m.wf) {a : Nat} {bs : List Byte}
    (ha : a + bs.length ≤ Config.memSize) : (m.writeBlock a bs).wf := by
  induction bs generalizing m a with
  | nil => exact h
  | cons c bs ih =>
    simp only [List.length_cons] at ha
    exact ih (Memory.wf_write h (by omega) c) (by omega)

theorem Memory.wf_nil : Memory.wf [] := by simp [Memory.wf, Cells.Wf]

@[simp] theorem Memory.readBlock_length (m : Memory) (a n : Nat) : (m.readBlock a n).length = n := by
  simp [Memory.readBlock]

theorem Memory.getElem_readBlock (m : Memory) (a n k : Nat) (h : k < (m.readBlock a n).length) :
    (m.readBlock a n)[k] = m.read (a + k) := by
  simp [Memory.readBlock]

/-- The fetch succeeds exactly when both bytes are valid addresses, and gives them big-endian (R53, R56). -/
theorem State.fetch_eq_some (s : State) (w : Word) :
    s.fetch = some w ↔ s.pc.toNat + 1 < Config.memSize ∧
      w = wordOfBytes (s.readByte s.pc.toNat) (s.readByte (s.pc.toNat + 1)) := by
  unfold State.fetch
  split <;> simp_all [eq_comm]

theorem State.fetch_eq_none (s : State) : s.fetch = none ↔ Config.memSize ≤ s.pc.toNat + 1 := by
  unfold State.fetch
  split <;> simp_all

theorem blockOk_iff (base len : Nat) : blockOk base len = true ↔ len = 0 ∨ base + len ≤ Config.memSize := by
  simp [blockOk]

/-- A guarded block access either does its work or raises, with the lowest bad address, and nothing else. -/
theorem State.guardBlock_cases (s : State) (c : Cause) (base len : Nat) (op : Word) (done : State) :
    (blockOk base len = true ∧ s.guardBlock c base len op done = done) ∨
      (blockOk base len = false ∧
        s.guardBlock c base len op done = s.raise c (BitVec.ofNat 16 (lowestBad base)) op) := by
  cases h : blockOk base len <;> simp [State.guardBlock, h]

theorem State.guardBlock_ok (s : State) (c : Cause) {base len : Nat} (op : Word) (done : State)
    (h : len = 0 ∨ base + len ≤ Config.memSize) : s.guardBlock c base len op done = done :=
  if_pos ((blockOk_iff base len).2 h)

theorem State.guardBlock_bad (s : State) (c : Cause) {base len : Nat} (op : Word) (done : State)
    (h : ¬ (len = 0 ∨ base + len ≤ Config.memSize)) :
    s.guardBlock c base len op done = s.raise c (BitVec.ofNat 16 (lowestBad base)) op :=
  if_neg fun hb => h ((blockOk_iff base len).1 hb)

/-! ## The call stack -/

/-- A push either finds the stack full or puts the word on top and changes nothing else (R30). -/
theorem State.push_cases (s : State) (w : Word) :
    (s.stack.length = s.params.stackDepth ∧ s.push w = none) ∨
      (s.stack.length ≠ s.params.stackDepth ∧ s.push w = some { s with stack := w :: s.stack }) := by
  by_cases h : s.stack.length = s.params.stackDepth <;> simp [State.push, h]

/-- A pop either finds the stack empty or takes its top and changes nothing else (R30). -/
theorem State.pop_cases (s : State) :
    (s.stack = [] ∧ s.pop = none) ∨
      ∃ w rest, s.stack = w :: rest ∧ s.pop = some (w, { s with stack := rest }) := by
  cases h : s.stack <;> simp [State.pop, h]

/-! ## The framebuffer -/

theorem pixelByte_not (on : Bool) : pixelByte (!on) = pixelByte on ^^^ 255 := by cases on <;> decide

@[simp] theorem pixelByte_eq_on (on : Bool) : pixelByte on = 255 ↔ on = true := by cases on <;> decide

/-- A byte of the framebuffer is 0 or 255 (R32, R33). -/
theorem Framebuffer.pixel_cases (fb : Framebuffer) (x y : Nat) : fb.pixel x y = 0 ∨ fb.pixel x y = 255 := by
  have both : ∀ on : Bool, pixelByte on = 0 ∨ pixelByte on = 255 := by decide
  exact both _

theorem Framebuffer.pixel_eq_on (fb : Framebuffer) (x y : Nat) :
    fb.pixel x y = 255 ↔ (fb.rowBits y).testBit x = true :=
  pixelByte_eq_on _

/-- Which columns a clipped run holds (R183). -/
theorem testBit_runBits (w x n j : Nat) :
    (runBits w x n).testBit j = true ↔ x ≤ j ∧ j < x + n ∧ j < w := by
  rw [runBits, Nat.testBit_shiftLeft, Nat.testBit_two_pow_sub_one, Bool.and_eq_true, decide_eq_true_iff,
    decide_eq_true_iff]
  omega

/-- A toggle turns the chosen pixels of its row over and leaves every other pixel alone (R181). -/
theorem Framebuffer.pixel_toggle (fb : Framebuffer) (y cols x' y' : Nat) :
    (fb.toggle y cols).pixel x' y' =
      if y' = y ∧ cols.testBit x' = true then fb.pixel x' y' ^^^ 255 else fb.pixel x' y' := by
  by_cases h : y' = y
  · subst h
    cases hc : cols.testBit x' <;>
      simp [Framebuffer.pixel, Framebuffer.rowBits, Framebuffer.toggle, Nat.testBit_xor, hc, pixelByte_not]
  · simp [Framebuffer.pixel, Framebuffer.rowBits, Framebuffer.toggle, Cells.read_write, h]

/-- Some chosen pixel of the row is on (R181). -/
theorem Framebuffer.anyOn_iff (fb : Framebuffer) (y cols : Nat) :
    fb.anyOn y cols = true ↔ ∃ x, cols.testBit x = true ∧ fb.pixel x y = 255 := by
  simp only [Framebuffer.anyOn, bne_iff_ne, Framebuffer.pixel_eq_on]
  constructor
  · intro h
    obtain ⟨x, hx⟩ := Nat.exists_testBit_of_ne_zero h
    rw [Nat.testBit_and, Bool.and_eq_true] at hx
    exact ⟨x, hx.2, hx.1⟩
  · rintro ⟨x, h1, h2⟩ h
    have : (fb.rowBits y &&& cols).testBit x = false := by rw [h]; exact Nat.zero_testBit x
    simp [Nat.testBit_and, h1, h2] at this

/-- Consecutive rows of one value: what each row number reads as. -/
theorem Cells.read_range_map (v : Nat) (h y : Nat) :
    Cells.read 0 ((List.range h).map (fun y => (y, v))) y = if y < h then v else 0 := by
  have gen : ∀ n k, Cells.read 0 ((List.range' k n).map (fun y => (y, v))) y =
      if k ≤ y ∧ y < k + n then v else 0 := by
    intro n
    induction n with
    | zero => intro k; simp
    | succ n ih =>
      intro k
      rw [List.range'_succ, List.map_cons, Cells.read, ih]
      split_ifs <;> first | rfl | omega
  simpa [List.range_eq_range'] using gen h 0

/-- After a fill request every pixel inside the screen has the value asked for (R183). -/
theorem Framebuffer.pixel_filled (w h : Nat) (v : Config.Pixel) {x y : Nat} (hx : x < w) (hy : y < h) :
    (Framebuffer.filled w h v).pixel x y = v.byte := by
  cases v with
  | off => simp [Framebuffer.filled, Framebuffer.pixel, Framebuffer.rowBits, Config.Pixel.byte, pixelByte]
  | on =>
    have hw : ¬ w = 0 := by omega
    simp [Framebuffer.filled, Framebuffer.pixel, Framebuffer.rowBits, hw, Cells.read_range_map, hy, hx,
      Nat.testBit_two_pow_sub_one, Config.Pixel.byte, pixelByte]

/-- A toggle of columns inside the screen keeps the framebuffer's form. -/
theorem Framebuffer.wf_toggle {w h : Nat} {fb : Framebuffer} (hf : fb.wf w h) {y cols : Nat} (hy : y < h)
    (hc : cols < 2 ^ w) : (fb.toggle y cols).wf w h := by
  have hrow : fb.rowBits y < 2 ^ w := by
    have gen : ∀ l : List (Nat × Nat), (∀ r ∈ l, r.2 < 2 ^ w) → Cells.read 0 l y < 2 ^ w := by
      intro l
      induction l with
      | nil => simp [Cells.read]
      | cons q r ih =>
        intro hl
        unfold Cells.read
        split_ifs
        · exact ih fun p hp => hl p (List.mem_cons_of_mem _ hp)
        · exact hl q (by simp)
        · positivity
    exact gen _ fun r hr => (hf.2 r hr).2
  refine ⟨Cells.wf_write hf.1 _ _, fun r hr => ?_⟩
  rcases Cells.mem_write 0 hr with ⟨rfl, -⟩ | hr
  · exact ⟨hy, Nat.xor_lt_two_pow hrow hc⟩
  · exact hf.2 r hr

theorem runBits_lt (w x n : Nat) : runBits w x n < 2 ^ w := by
  rw [runBits, Nat.shiftLeft_eq]
  by_cases h : x ≤ w
  · calc (2 ^ min n (w - x) - 1) * 2 ^ x < 2 ^ min n (w - x) * 2 ^ x := by
          have : 0 < 2 ^ min n (w - x) := by positivity
          have : 0 < 2 ^ x := by positivity
          exact Nat.mul_lt_mul_of_pos_right (by omega) this
      _ = 2 ^ (min n (w - x) + x) := by rw [pow_add]
      _ ≤ 2 ^ w := Nat.pow_le_pow_right (by omega) (by omega)
  · have : min n (w - x) = 0 := by omega
    simp [this]

theorem Framebuffer.wf_filled (w h : Nat) (v : Config.Pixel) : (Framebuffer.filled w h v).wf w h := by
  cases v with
  | off => simp [Framebuffer.filled, Framebuffer.wf, Cells.Wf]
  | on =>
    by_cases hw : w = 0
    · simp [Framebuffer.filled, Framebuffer.wf, Cells.Wf, hw]
    · have h1 : 1 < 2 ^ w := Nat.one_lt_two_pow hw
      refine ⟨⟨?_, ?_⟩, ?_⟩ <;> simp only [Framebuffer.filled, hw, if_false]
      · exact List.pairwise_map.2 (List.pairwise_lt_range.imp id)
      · simp; omega
      · simp

end Sys2Proof.Machine
end

