-- ==== Sys2Proof/Laws/Operands.lean ====
section
/-! SUPPORT. What each operand form gives, said once. -/

namespace Sys2Proof.Machine

@[simp] theorem addrOperand_toNat (nnn : BitVec 12) : (addrOperand nnn).toNat = nnn.toNat := by
  have := nnn.isLt
  simp only [addrOperand, BitVec.toNat_setWidth]
  omega

@[simp] theorem byteOperand_toNat (b : Byte) : (byteOperand b).toNat = b.toNat := by
  have := b.isLt
  simp only [byteOperand, BitVec.toNat_setWidth]
  omega

/-- A value up to 15 names the key of that number (R61). -/
theorem keyOperand_eq_some {b : Byte} (h : b.toNat < 16) : keyOperand b = some ⟨b.toNat, h⟩ := by
  simp [keyOperand, h]

/-- A value above 15 names no key (R207). -/
theorem keyOperand_eq_none {b : Byte} (h : 15 < b.toNat) : keyOperand b = none := by
  simp [keyOperand]; omega

/-- The register and key numbers, in order. -/
theorem getElem_allRegs (k : Nat) (h : k < allRegs.length) : allRegs[k] = ⟨k, h⟩ := by
  have all : ∀ k : Fin 16, allRegs[k.val]'k.isLt = k := by decide
  exact all ⟨k, h⟩

/-- `first_held()` gives a key exactly when it is held and no lower one is (R176). -/
theorem State.firstHeld_eq_some (s : State) (k : Key) :
    s.firstHeld = some k ↔ s.keyHeld k = true ∧ ∀ j < k, s.keyHeld j = false := by
  simp only [State.firstHeld, List.find?_eq_some_iff_getElem, Bool.not_eq_true', getElem_allRegs]
  refine and_congr_right fun _ => ⟨?_, fun h => ⟨k.val, k.isLt, rfl, fun j hj => h _ hj⟩⟩
  rintro ⟨i, hi, rfl, h⟩ j hj
  exact h j.val hj

/-- `first_held()` gives none exactly when no key is held (R176). -/
theorem State.firstHeld_eq_none (s : State) : s.firstHeld = none ↔ ∀ k, s.keyHeld k = false := by
  have all : ∀ k : Key, k ∈ allRegs := by decide
  simp only [State.firstHeld, List.find?_eq_none, Bool.not_eq_true]
  exact ⟨fun h k => h k (all k), fun h k _ => h k⟩

/-- The registers FX55 and FX65 move: those up to `x` (R159, R160). -/
theorem mem_regBlock (x r : Reg) : r ∈ regBlock x ↔ r ≤ x := by
  revert x r; decide

theorem regBlock_nodup (x : Reg) : (regBlock x).Nodup := by
  revert x; decide

@[simp] theorem regBlock_length (x : Reg) : (regBlock x).length = x.val + 1 := by
  revert x; decide

/-- Entry `k` of the block is register `k` (R54: register 0 at the lowest address). -/
theorem getElem_regBlock (x : Reg) (k : Nat) (h : k < (regBlock x).length) : ((regBlock x)[k]).val = k := by
  have all : ∀ x : Reg, ∀ k : Fin 16, ∀ h : k.val < (regBlock x).length, ((regBlock x)[k.val]).val = k.val := by
    decide
  have h16 : k < 16 := by have := x.isLt; simp at h; omega
  exact all x ⟨k, h16⟩ h

/-- A block load: the listed registers take their bytes, everything else is as before (R160). -/
theorem State.loadBlock_spec (s : State) (base : Nat) (rs : List Reg) (r : Reg) :
    (s.loadBlock base rs).readReg r = (if r ∈ rs then s.readByte (base + r.val) else s.readReg r) ∧
      { s.loadBlock base rs with v := s.v } = s := by
  have gen : ∀ t : State, t.mem = s.mem →
      (rs.foldl (fun t r => t.setReg r (s.readByte (base + r.val))) t).readReg r =
        (if r ∈ rs then s.readByte (base + r.val) else t.readReg r) ∧
      { rs.foldl (fun t r => t.setReg r (s.readByte (base + r.val))) t with v := t.v } = t := by
    induction rs with
    | nil => intro t _; simp
    | cons q rs ih =>
      intro t ht
      obtain ⟨h1, h2⟩ := ih (t.setReg q (s.readByte (base + q.val))) ht
      refine ⟨?_, ?_⟩
      · rw [List.foldl_cons, h1, State.readReg_setReg]
        by_cases hq : r = q
        · subst hq; simp
        · simp [hq]
      · rw [List.foldl_cons]
        generalize hF : List.foldl _ _ rs = u at h2
        have hu := congrArg (fun w : State => { w with v := t.v }) h2
        exact (by cases u; cases t; simpa [State.setReg] using hu)
  exact gen s rfl

/-! The fields a block load leaves alone. -/

@[simp] theorem State.loadBlock_mem (s : State) (base : Nat) (rs : List Reg) : (s.loadBlock base rs).mem = s.mem :=
  (congrArg State.mem (s.loadBlock_spec base rs 0).2 :)
@[simp] theorem State.loadBlock_i (s : State) (base : Nat) (rs : List Reg) : (s.loadBlock base rs).i = s.i :=
  (congrArg State.i (s.loadBlock_spec base rs 0).2 :)
@[simp] theorem State.loadBlock_pc (s : State) (base : Nat) (rs : List Reg) : (s.loadBlock base rs).pc = s.pc :=
  (congrArg State.pc (s.loadBlock_spec base rs 0).2 :)
@[simp] theorem State.loadBlock_dt (s : State) (base : Nat) (rs : List Reg) : (s.loadBlock base rs).dt = s.dt :=
  (congrArg State.dt (s.loadBlock_spec base rs 0).2 :)
@[simp] theorem State.loadBlock_st (s : State) (base : Nat) (rs : List Reg) : (s.loadBlock base rs).st = s.st :=
  (congrArg State.st (s.loadBlock_spec base rs 0).2 :)
@[simp] theorem State.loadBlock_stack (s : State) (base : Nat) (rs : List Reg) : (s.loadBlock base rs).stack = s.stack :=
  (congrArg State.stack (s.loadBlock_spec base rs 0).2 :)
@[simp] theorem State.loadBlock_key (s : State) (base : Nat) (rs : List Reg) : (s.loadBlock base rs).key = s.key :=
  (congrArg State.key (s.loadBlock_spec base rs 0).2 :)
@[simp] theorem State.loadBlock_fb (s : State) (base : Nat) (rs : List Reg) : (s.loadBlock base rs).fb = s.fb :=
  (congrArg State.fb (s.loadBlock_spec base rs 0).2 :)
@[simp] theorem State.loadBlock_fault (s : State) (base : Nat) (rs : List Reg) : (s.loadBlock base rs).fault = s.fault :=
  (congrArg State.fault (s.loadBlock_spec base rs 0).2 :)
@[simp] theorem State.loadBlock_params (s : State) (base : Nat) (rs : List Reg) : (s.loadBlock base rs).params = s.params :=
  (congrArg State.params (s.loadBlock_spec base rs 0).2 :)
@[simp] theorem State.loadBlock_draws (s : State) (base : Nat) (rs : List Reg) : (s.loadBlock base rs).draws = s.draws :=
  (congrArg State.draws (s.loadBlock_spec base rs 0).2 :)
@[simp] theorem State.loadBlock_pending (s : State) (base : Nat) (rs : List Reg) : (s.loadBlock base rs).pending = s.pending :=
  (congrArg State.pending (s.loadBlock_spec base rs 0).2 :)
@[simp] theorem State.loadBlock_started (s : State) (base : Nat) (rs : List Reg) : (s.loadBlock base rs).started = s.started :=
  (congrArg State.started (s.loadBlock_spec base rs 0).2 :)
@[simp] theorem State.loadBlock_out (s : State) (base : Nat) (rs : List Reg) : (s.loadBlock base rs).out = s.out :=
  (congrArg State.out (s.loadBlock_spec base rs 0).2 :)

/-- A skip moves PC by 4 or by 2 and changes nothing else (R23). -/
theorem State.skipIf_eq (s : State) (c : Bool) :
    s.skipIf c = { s with pc := if c then s.pc + 4 else s.pc + 2 } := by
  cases c
  · rfl
  · simp [State.skipIf, State.advance, BitVec.add_assoc]

/-- The rewind undoes the advance (R175). -/
@[simp] theorem State.rewind_advance (s : State) : s.advance.rewind = s := by
  simp [State.rewind, State.advance]

end Sys2Proof.Machine
end

