-- ==== Sys2Proof/Laws/Display.lean ====
section
/-! SUPPORT. What the toggle requests of the framebuffer's write port do, said once (48_display.md R181, R183). -/

namespace Sys2Proof.Machine

/-- One row of a block: the pixels of the run that are inside the screen are turned over, and it is a collision if one of
them was on. -/
theorem drawRun_spec (p : Config.Params) (px py : Nat) (d : Drawing) :
    (∀ x y, (drawRun p px py d).fb.pixel x y =
      if y = py ∧ px ≤ x ∧ x < px + 10 ∧ x < p.screenW ∧ y < p.screenH then d.fb.pixel x y ^^^ 255
      else d.fb.pixel x y) ∧
    ((drawRun p px py d).hit = true ↔ d.hit = true ∨
      ∃ x, px ≤ x ∧ x < px + 10 ∧ x < p.screenW ∧ py < p.screenH ∧ d.fb.pixel x py = 255) := by
  unfold drawRun
  by_cases h : py < p.screenH
  · rw [if_pos h]
    refine ⟨fun x y => ?_, ?_⟩
    · rw [Framebuffer.pixel_toggle]
      refine if_congr ((and_congr_right' (testBit_runBits _ _ _ _)).trans ⟨?_, ?_⟩) rfl rfl
      · rintro ⟨rfl, h1, h2, h3⟩; exact ⟨rfl, h1, h2, h3, h⟩
      · rintro ⟨rfl, h1, h2, h3, -⟩; exact ⟨rfl, h1, h2, h3⟩
    · rw [Bool.or_eq_true, Framebuffer.anyOn_iff]
      simp only [testBit_runBits]
      refine or_congr_right ⟨?_, ?_⟩
      · rintro ⟨x, ⟨h1, h2, h3⟩, h4⟩; exact ⟨x, h1, h2, h3, h, h4⟩
      · rintro ⟨x, h1, h2, h3, -, h4⟩; exact ⟨x, ⟨h1, h2, h3⟩, h4⟩
  · rw [if_neg h]
    refine ⟨fun x y => ?_, by simp [h]⟩
    rw [if_neg]
    rintro ⟨rfl, -, -, -, hy⟩
    exact h hy

/-- A toggle request keeps the framebuffer's form. -/
theorem drawRun_wf {p : Config.Params} (px py : Nat) {d : Drawing} (hd : d.fb.wf p.screenW p.screenH) :
    (drawRun p px py d).fb.wf p.screenW p.screenH := by
  unfold drawRun
  split
  · next h => exact Framebuffer.wf_toggle hd h (runBits_lt _ _ _)
  · exact hd

/-- Whatever every toggle request keeps, a whole drawing keeps. -/
theorem drawRows_induct {p : Config.Params} {P : Drawing → Prop}
    (run : ∀ px py d, P d → P (drawRun p px py d)) (x0 y0 : Nat) (sprite : List Byte) {d : Drawing} (hd : P d) :
    P (drawRows p x0 y0 sprite d) := by
  have fold : ∀ (l : List Nat) (f : Drawing → Nat → Drawing), (∀ d n, P d → P (f d n)) → ∀ d, P d → P (l.foldl f d) := by
    intro l f hf
    induction l with
    | nil => exact fun _ h => h
    | cons n l ih => exact fun d h => ih _ (hf d n h)
  induction sprite generalizing y0 d with
  | nil => exact hd
  | cons b rest ih =>
    refine ih _ (fold _ _ (fun d bit hd => ?_) d hd)
    split
    · exact fold _ _ (fun d dy hd => run _ _ d hd) d hd
    · exact hd

/-- A whole drawing keeps the framebuffer's form. -/
theorem drawRows_wf {p : Config.Params} (x0 y0 : Nat) (sprite : List Byte) {d : Drawing}
    (hd : d.fb.wf p.screenW p.screenH) : (drawRows p x0 y0 sprite d).fb.wf p.screenW p.screenH :=
  drawRows_induct (P := fun d => d.fb.wf p.screenW p.screenH) (fun px py _ h => drawRun_wf px py h) x0 y0 sprite hd

end Sys2Proof.Machine
end

