-- ==== Sys2Proof/Laws/Drawing.lean ====
section
/-! SUPPORT. What a whole drawing does to the framebuffer and the collision, said once (48_display.md R181, R183). -/

open Sys2Proof.Safety

namespace Sys2Proof.Machine

/-- From `d` to `e` exactly the pixels of `S` were turned over, and it is a collision if one of them was on. -/
structure Toggles (S : Nat → Nat → Prop) (d e : Drawing) : Prop where
  flipped : ∀ x y, S x y → e.fb.pixel x y = d.fb.pixel x y ^^^ 255
  kept : ∀ x y, ¬ S x y → e.fb.pixel x y = d.fb.pixel x y
  hit : e.hit = true ↔ d.hit = true ∨ ∃ x y, S x y ∧ d.fb.pixel x y = 255

/-- Nothing to turn over. -/
theorem Toggles.empty {S : Nat → Nat → Prop} (h : ∀ x y, ¬ S x y) (d : Drawing) : Toggles S d d :=
  ⟨fun x y hs => (h x y hs).elim, fun _ _ _ => rfl, ⟨.inl, fun hd => hd.elim id fun ⟨x, y, hs, _⟩ => (h x y hs).elim⟩⟩

/-- Two drawings on disjoint pixels, one after the other. -/
theorem Toggles.then {S T U : Nat → Nat → Prop} {d e f : Drawing} (h1 : Toggles S d e) (h2 : Toggles T e f)
    (disj : ∀ x y, S x y → ¬ T x y) (union : ∀ x y, U x y ↔ S x y ∨ T x y) : Toggles U d f := by
  refine ⟨fun x y hu => ?_, fun x y hu => ?_, ?_⟩
  · rcases (union x y).1 hu with hs | ht
    · rw [h2.kept x y (disj x y hs), h1.flipped x y hs]
    · rw [h2.flipped x y ht, h1.kept x y fun hs => disj x y hs ht]
  · have := not_or.1 (fun h => hu ((union x y).2 h))
    rw [h2.kept x y this.2, h1.kept x y this.1]
  · rw [h2.hit, h1.hit, or_assoc]
    refine or_congr_right ⟨?_, ?_⟩
    · rintro (⟨x, y, hs, hp⟩ | ⟨x, y, ht, hp⟩)
      · exact ⟨x, y, (union x y).2 (.inl hs), hp⟩
      · exact ⟨x, y, (union x y).2 (.inr ht), (h1.kept x y fun hs => disj x y hs ht) ▸ hp⟩
    · rintro ⟨x, y, hu, hp⟩
      rcases (union x y).1 hu with hs | ht
      · exact .inl ⟨x, y, hs, hp⟩
      · exact .inr ⟨x, y, ht, (h1.kept x y fun hs => disj x y hs ht).symm ▸ hp⟩

/-- A run of drawings on pairwise disjoint pixels. -/
theorem Toggles.fold {S : Nat → Nat → Nat → Prop} {f : Drawing → Nat → Drawing}
    (hf : ∀ d k, Toggles (S k) d (f d k)) (disj : ∀ k j x y, S k x y → S j x y → k = j) (n : Nat) (d : Drawing) :
    Toggles (fun x y => ∃ k < n, S k x y) d ((List.range n).foldl f d) := by
  induction n with
  | zero => exact Toggles.empty (by simp) d
  | succ n ih =>
    rw [List.range_succ, List.foldl_append]
    refine ih.then (hf _ n) ?_ fun x y => ?_
    · rintro x y ⟨k, hk, hs⟩ ht
      exact absurd (disj k n x y hs ht) (by omega)
    · constructor
      · rintro ⟨k, hk, hs⟩
        rcases Nat.lt_succ_iff_lt_or_eq.1 hk with h | rfl
        · exact .inl ⟨k, h, hs⟩
        · exact .inr hs
      · rintro (⟨k, hk, hs⟩ | hs)
        · exact ⟨k, by omega, hs⟩
        · exact ⟨n, by omega, hs⟩

/-- The same pixels, said in another way. -/
theorem Toggles.congr {S T : Nat → Nat → Prop} {d e : Drawing} (h : Toggles S d e) (hst : ∀ x y, S x y ↔ T x y) :
    Toggles T d e := by
  have : S = T := funext fun x => funext fun y => propext (hst x y)
  exact this ▸ h

/-- One row of a block (R183). -/
theorem drawRun_toggles (p : Config.Params) (px py : Nat) (d : Drawing) :
    Toggles (fun x y => y = py ∧ px ≤ x ∧ x < px + 10 ∧ x < p.screenW ∧ y < p.screenH) d (drawRun p px py d) := by
  obtain ⟨h1, h2⟩ := drawRun_spec p px py d
  refine ⟨fun x y hs => by rw [h1, if_pos hs], fun x y hs => by rw [h1, if_neg hs], h2.trans (or_congr_right ?_)⟩
  constructor
  · rintro ⟨x, ha, hb, hc, hd, he⟩; exact ⟨x, py, ⟨rfl, ha, hb, hc, hd⟩, he⟩
  · rintro ⟨x, y, ⟨rfl, ha, hb, hc, hd⟩, he⟩; exact ⟨x, ha, hb, hc, hd, he⟩

/-- The toggle-block request (R183): the block's pixels that are inside the screen. -/
theorem drawBlock_toggles (p : Config.Params) (px py : Nat) (d : Drawing) :
    Toggles (fun x y => px ≤ x ∧ x < px + 10 ∧ py ≤ y ∧ y < py + 10 ∧ x < p.screenW ∧ y < p.screenH) d
      (drawBlock p px py d) := by
  refine (Toggles.fold (fun d dy => drawRun_toggles p px (py + dy) d) ?_ Config.scale d).congr fun x y => ?_
  · rintro k j x y ⟨h1, -⟩ ⟨h2, -⟩; omega
  · constructor
    · rintro ⟨k, hk, h1, h2, h3, h4, h5⟩
      simp only [Config.scale] at hk
      exact ⟨h2, h3, by omega, by omega, h4, h5⟩
    · rintro ⟨h1, h2, h3, h4, h5, h6⟩
      exact ⟨y - py, by simp only [Config.scale]; omega, by omega, h1, h2, h5, h6⟩

/-- A sprite row (R181): a block for each 1 bit. -/
theorem drawByte_toggles (p : Config.Params) (x0 py : Nat) (b : Byte) (d : Drawing) :
    Toggles (fun x y => ∃ bit < 8, b.getLsbD (7 - bit) = true ∧ x0 + bit * 10 ≤ x ∧ x < x0 + bit * 10 + 10 ∧
      py ≤ y ∧ y < py + 10 ∧ x < p.screenW ∧ y < p.screenH) d (drawByte p x0 py b d) := by
  refine Toggles.fold (fun d bit => ?_) ?_ 8 d
  · split
    · next h =>
      exact (drawBlock_toggles p _ py d).congr fun x y => by simp [h, Config.scale]
    · next h => exact Toggles.empty (fun x y hs => h hs.1) d
  · rintro k j x y ⟨-, h1, h2, -⟩ ⟨-, h3, h4, -⟩; omega

/-- A whole drawing (R181): the pixels the sprite covers that are inside the screen. -/
theorem drawRows_toggles (p : Config.Params) (x0 y0 : Nat) (sprite : List Byte) (d : Drawing) :
    Toggles (fun x y => SpriteCovers sprite x0 y0 x y ∧ x < p.screenW ∧ y < p.screenH) d
      (drawRows p x0 y0 sprite d) := by
  induction sprite generalizing y0 d with
  | nil => exact Toggles.empty (by rintro x y ⟨⟨row, bit, h, -⟩, -⟩; simp at h) d
  | cons b rest ih =>
    refine (drawByte_toggles p x0 y0 b d).then (ih _ _) ?_ fun x y => ?_
    · rintro x y ⟨bit, -, -, -, -, -, h1, -⟩ ⟨⟨row, bit', -, -, -, -, -, h2, -⟩, -⟩
      simp only [Config.scale] at h2
      omega
    · constructor
      · rintro ⟨⟨row, bit, hr, hb, hs, h1, h2, h3, h4⟩, h5, h6⟩
        cases row with
        | zero => exact .inl ⟨bit, hb, hs, h1, h2, by omega, by omega, h5, h6⟩
        | succ row =>
          refine .inr ⟨⟨row, bit, by simpa using hr, hb, by simpa using hs, h1, h2, ?_, ?_⟩, h5, h6⟩ <;>
            simp only [Config.scale] <;> omega
      · rintro (⟨bit, hb, hs, h1, h2, h3, h4, h5, h6⟩ | ⟨⟨row, bit, hr, hb, hs, h1, h2, h3, h4⟩, h5, h6⟩)
        · exact ⟨⟨0, bit, by simp, hb, hs, h1, h2, by omega, by omega⟩, h5, h6⟩
        · simp only [Config.scale] at h3 h4
          exact ⟨⟨row + 1, bit, by simpa using hr, hb, by simpa using hs, h1, h2, by omega, by omega⟩, h5, h6⟩

/-- Committing a drawing writes the collision to `VF` and no other register (R181). -/
theorem State.readReg_commitDrawing (s : State) (d : Drawing) (r : Reg) :
    (s.commitDrawing d).readReg r = if r = regVF then flagByte d.hit else s.readReg r :=
  State.readReg_setFlag _ d.hit r

end Sys2Proof.Machine
end

