-- ==== Sys2Proof/Laws/PerInstr.lean ====
section
/-! SUPPORT. One lemma per instruction: its word carries the fixed bits of its row of the opcode map
(30_encoding.md R85, R86). -/

namespace Sys2Proof.Laws.FixedBits

/-- The word of `i` is one its row selects. -/
def Statement (i : Instr) : Prop := encode i &&& (rowOf i).mask = (rowOf i).bits

/-- Format `NNN` under its mask keeps the family. -/
theorem wordNNN_mask (f : BitVec 4) (nnn : BitVec 12) : wordNNN f nnn &&& 0xF000 = wordNNN f 0 := by
  have h : (0xF000 : Word) = (0xF#4 ++ 0#12) := rfl
  rw [wordNNN, h, BitVec.and_append, wordNNN]
  congr 1
  · exact BitVec.and_allOnes
  · exact BitVec.and_zero

/-- Format `XNN` under the mask of its family keeps the family. -/
theorem wordXNN_mask (f : BitVec 4) (x : Reg) (nn : Byte) : wordXNN f x nn &&& 0xF000 = wordXNN f 0 0 := by
  have h : (0xF000 : Word) = (0xF#4 ++ 0#4 ++ 0#8) := rfl
  rw [wordXNN, h, BitVec.and_append, BitVec.and_append, wordXNN]
  congr 2
  · exact BitVec.and_allOnes
  · exact BitVec.and_zero
  · exact BitVec.and_zero

/-- Format `X` under its mask keeps the family and the low byte. -/
theorem wordX_mask (f : BitVec 4) (x : Reg) (nn : Byte) : wordXNN f x nn &&& 0xF0FF = wordXNN f 0 nn := by
  have h : (0xF0FF : Word) = (0xF#4 ++ 0#4 ++ 0xFF#8) := rfl
  rw [wordXNN, h, BitVec.and_append, BitVec.and_append, wordXNN]
  congr 2
  · exact BitVec.and_allOnes
  · exact BitVec.and_zero
  · exact BitVec.and_allOnes

/-- Format `XY` under its mask keeps the family and the low nibble. -/
theorem wordXY_mask (f : BitVec 4) (x y : Reg) (n : BitVec 4) :
    wordXYN f x y n &&& 0xF00F = wordXYN f 0 0 n := by
  have h : (0xF00F : Word) = (0xF#4 ++ 0#4 ++ 0#4 ++ 0xF#4) := rfl
  rw [wordXYN, h, BitVec.and_append, BitVec.and_append, BitVec.and_append, wordXYN]
  congr 3
  · exact BitVec.and_allOnes
  · exact BitVec.and_zero
  · exact BitVec.and_zero
  · exact BitVec.and_allOnes

/-- Format `XYN` under the mask of its family keeps the family. -/
theorem wordXYN_mask (f : BitVec 4) (x y : Reg) (n : BitVec 4) :
    wordXYN f x y n &&& 0xF000 = wordXYN f 0 0 0 := by
  have h : (0xF000 : Word) = (0xF#4 ++ 0#4 ++ 0#4 ++ 0#4) := rfl
  rw [wordXYN, h, BitVec.and_append, BitVec.and_append, BitVec.and_append, wordXYN]
  congr 3
  · exact BitVec.and_allOnes
  · exact BitVec.and_zero
  · exact BitVec.and_zero
  · exact BitVec.and_zero

theorem cls : Statement .cls := rfl
theorem ret : Statement .ret := rfl
theorem jp (nnn : BitVec 12) : Statement (.jp nnn) := wordNNN_mask 1 nnn
theorem call (nnn : BitVec 12) : Statement (.call nnn) := wordNNN_mask 2 nnn
theorem seImm (x : Reg) (nn : Byte) : Statement (.seImm x nn) := wordXNN_mask 3 x nn
theorem sneImm (x : Reg) (nn : Byte) : Statement (.sneImm x nn) := wordXNN_mask 4 x nn
theorem seReg (x y : Reg) : Statement (.seReg x y) := wordXY_mask 5 x y 0
theorem ldImm (x : Reg) (nn : Byte) : Statement (.ldImm x nn) := wordXNN_mask 6 x nn
theorem addImm (x : Reg) (nn : Byte) : Statement (.addImm x nn) := wordXNN_mask 7 x nn
theorem ldReg (x y : Reg) : Statement (.ldReg x y) := wordXY_mask 8 x y 0
theorem orReg (x y : Reg) : Statement (.orReg x y) := wordXY_mask 8 x y 1
theorem andReg (x y : Reg) : Statement (.andReg x y) := wordXY_mask 8 x y 2
theorem xorReg (x y : Reg) : Statement (.xorReg x y) := wordXY_mask 8 x y 3
theorem addReg (x y : Reg) : Statement (.addReg x y) := wordXY_mask 8 x y 4
theorem sub (x y : Reg) : Statement (.sub x y) := wordXY_mask 8 x y 5
theorem shr (x y : Reg) : Statement (.shr x y) := wordXY_mask 8 x y 6
theorem subn (x y : Reg) : Statement (.subn x y) := wordXY_mask 8 x y 7
theorem shl (x y : Reg) : Statement (.shl x y) := wordXY_mask 8 x y 0xE
theorem sneReg (x y : Reg) : Statement (.sneReg x y) := wordXY_mask 9 x y 0
theorem ldI (nnn : BitVec 12) : Statement (.ldI nnn) := wordNNN_mask 0xA nnn
theorem jpV0 (nnn : BitVec 12) : Statement (.jpV0 nnn) := wordNNN_mask 0xB nnn
theorem rnd (x : Reg) (nn : Byte) : Statement (.rnd x nn) := wordXNN_mask 0xC x nn
theorem drw (x y : Reg) (n : BitVec 4) : Statement (.drw x y n) := wordXYN_mask 0xD x y n
theorem skp (x : Reg) : Statement (.skp x) := wordX_mask 0xE x 0x9E
theorem sknp (x : Reg) : Statement (.sknp x) := wordX_mask 0xE x 0xA1
theorem ldVxDt (x : Reg) : Statement (.ldVxDt x) := wordX_mask 0xF x 0x07
theorem ldVxK (x : Reg) : Statement (.ldVxK x) := wordX_mask 0xF x 0x0A
theorem ldDtVx (x : Reg) : Statement (.ldDtVx x) := wordX_mask 0xF x 0x15
theorem ldStVx (x : Reg) : Statement (.ldStVx x) := wordX_mask 0xF x 0x18
theorem addI (x : Reg) : Statement (.addI x) := wordX_mask 0xF x 0x1E
theorem ldF (x : Reg) : Statement (.ldF x) := wordX_mask 0xF x 0x29
theorem ldB (x : Reg) : Statement (.ldB x) := wordX_mask 0xF x 0x33
theorem storeRegs (x : Reg) : Statement (.storeRegs x) := wordX_mask 0xF x 0x55
theorem loadRegs (x : Reg) : Statement (.loadRegs x) := wordX_mask 0xF x 0x65

end Sys2Proof.Laws.FixedBits
end

