-- ==== Sys2Proof/Laws/Step.lean ====
section
/-! SUPPORT. What a step can do: every instruction answers a next state, and a step is a `Cycle` or one pending
transaction (60_exceptions.md R217), refused before the first `Reset` or `Load` (R244). -/

namespace Sys2Proof.Machine

/-- No instruction ends in a fault or a refusal: what R200 calls a fault is a next state (log 1). -/
theorem exec_total (i : Instr) (s : State) : ∃ t, exec i s = .next t := by
  cases i
  case ret => simp only [exec, execRet]; split <;> exact ⟨_, rfl⟩
  case call => simp only [exec, execCall]; split <;> exact ⟨_, rfl⟩
  case ldVxK => simp only [exec, execLdVxK]; split <;> exact ⟨_, rfl⟩
  all_goals exact ⟨_, rfl⟩

/-- What a `Cycle` does: nothing, a fetch fault, an instruction, or the no-op (R100 to R103, R203). -/
theorem cycle_cases (s : State) :
    (s.fault.valid = true ∧ cycle s = .next s) ∨
      (s.fault.valid = false ∧ s.fetch = none ∧ cycle s = .next (s.raise .fetchBounds s.pc 0)) ∨
      (∃ w i, s.fault.valid = false ∧ s.fetch = some w ∧ decode w = .ok i ∧ cycle s = exec i s) ∨
      (∃ w e, s.fault.valid = false ∧ s.fetch = some w ∧ decode w = .error e ∧ cycle s = .next s.advance) := by
  unfold cycle
  cases hv : s.fault.valid with
  | true => exact .inl ⟨rfl, rfl⟩
  | false =>
    cases hf : s.fetch with
    | none => exact .inr (.inl ⟨rfl, rfl, rfl⟩)
    | some w =>
      cases hd : decode w with
      | ok i => exact .inr (.inr (.inl ⟨w, i, rfl, rfl, hd, by simp [runWord, hd]⟩))
      | error e => exact .inr (.inr (.inr ⟨w, e, rfl, rfl, hd, by simp [runWord, hd, execNop]⟩))

/-- A transaction is refused before the first `Reset` or `Load`, else it does what it does (R244). -/
theorem perform_cases (tr : Transaction) (s : State) :
    (s.started = false ∧ tr.beginsRun = false ∧ perform tr s = .refused .beforeReset) ∨
      ((s.started = true ∨ tr.beginsRun = true) ∧ perform tr s = transact tr s) := by
  unfold perform
  cases s.started <;> cases tr.beginsRun <;> simp

/-- Once a run has begun every transaction does what it does. -/
theorem perform_of_started {s : State} (h : s.started = true) (tr : Transaction) : perform tr s = transact tr s := by
  simp [perform, h]

/-- `Reset` and `Load` act in every state (R243, R244). -/
theorem perform_of_beginsRun (s : State) {tr : Transaction} (h : tr.beginsRun = true) :
    perform tr s = transact tr s := by
  simp [perform, h]

/-- A step is a `Cycle` when nothing is pending, else the first pending transaction, taken off (R217, log 2). -/
theorem step_cases (s : State) :
    (s.pending = [] ∧ step s = perform .cycle s) ∨
      ∃ tr rest, s.pending = tr :: rest ∧ step s = perform tr { s with pending := rest } := by
  cases h : s.pending with
  | nil => exact .inl ⟨rfl, by simp [step, nextTransaction, h]⟩
  | cons tr rest => exact .inr ⟨tr, rest, rfl, by simp [step, nextTransaction, h]⟩

/-- A `Cycle` always gives a next state. -/
theorem cycle_total (s : State) : ∃ t, cycle s = .next t := by
  rcases cycle_cases s with ⟨-, h⟩ | ⟨-, -, h⟩ | ⟨w, i, -, -, -, h⟩ | ⟨w, e, -, -, -, h⟩
  · exact ⟨_, h⟩
  · exact ⟨_, h⟩
  · rw [h]; exact exec_total i s
  · exact ⟨_, h⟩

/-- No step, no change. -/
theorem core_run_zero (s : State) : core.run 0 s = .next s := rfl

/-- A run of one step more, when that step answers a next state. -/
theorem core_run_succ {s t : State} (n : Nat) (h : step s = .next t) : core.run (n + 1) s = core.run n t := by
  have hc : core.step s = .next t := h
  exact (Host.Core.run.eq_2 core s n).trans (by rw [hc])

end Sys2Proof.Machine
end

