-- ==== Sys2Proof/Tests/Slice0.lean ====
section
/-! SUPPORT. The model's own tests. Expected values are those of 95_test_vectors.md (the vector's name stands before each
test) or written out from the encoding of 30_encoding.md; the second part names a witness for the hypotheses of each
statement of Certificates/Slice0/Obligations.lean. -/

namespace Sys2Proof.Tests

open Sys2Proof.Machine Sys2Proof.Safety

/-- What is looked at in the next state, if there is one. -/
def after {α : Type} (f : State → α) : Host.Outcome State Fault Refusal → Option α
  | .next t => some (f t)
  | _ => none

/-- The reset state with some registers given a value. -/
def regs (l : List (Reg × Byte)) : State := l.foldl (fun s p => s.setReg p.1 p.2) State.reset

/-- The step that runs the word `w`, placed where the next step fetches. -/
def runs (w : Nat) (s : State) : Host.Outcome State Fault Refusal := step (s.withFetchWord 16 w)

/-- The state with `I` and some bytes of memory from there given a value. -/
def atI (i : Nat) (bs : List Byte) (s : State) : State :=
  { s with i := BitVec.ofNat 16 i, mem := Memory.writeBlock s.mem i bs }

/-- The state with one key held. -/
def hold (k : Key) (s : State) : State := s.setKey k true

/-- A state with sixteen return addresses, the call stack full. -/
def full : State := { State.reset with stack := List.replicate 16 0x202 }

/-- How many pixels of one row are on, among the first 200. -/
def onInRow (y : Nat) (s : State) : Nat := (List.range 200).countP (fun x => s.fb.pixel x y == 255)

/-- The parts of the fault latch. -/
def latch (s : State) : Bool × BitVec 3 × Word × Word × Word :=
  (s.fault.valid, s.fault.cause, s.fault.pc, s.fault.opcode, s.fault.info)

/-! ## What is well formed -/

/-- R215: a read outside the screen cannot be presented, and the step refuses it. -/
theorem test_illFormed_fbRead :
    Transaction.wellFormed State.reset.params (.fbRead 640 0) = false ∧
      Transaction.wellFormed State.reset.params (.fbRead 0 320) = false ∧
      Transaction.wellFormed State.reset.params (.fbRead 639 319) = true ∧
      after (fun _ => ()) (perform (.fbRead 640 0) State.reset) = none := by
  decide

/-- R82: there is no ill-formed instruction. -/
theorem test_wellFormed_instr : Instr.wellFormed (.drw 15 15 15) = true := by decide

/-! ## Decoding: each row of R86 by a word written out nibble by nibble -/

/-- R86: 00E0, 00EE, and two words that are neither. -/
theorem test_decode_family0 :
    decode 0x00E0 = .ok .cls ∧
      decode 0x00EE = .ok .ret ∧
      decode 0x00E1 = .error (.unknownWord 0x00E1) ∧
      decode 0x01E0 = .error (.unknownWord 0x01E0) := by
  decide

/-- R86: 1NNN, 2NNN, BNNN, ANNN. -/
theorem test_decode_jumps :
    decode 0x1ABC = .ok (.jp 0xABC) ∧
      decode 0x2DEF = .ok (.call 0xDEF) ∧
      decode 0xB123 = .ok (.jpV0 0x123) ∧
      decode 0xAFED = .ok (.ldI 0xFED) := by
  decide

/-- R86: 3XNN, 4XNN, 6XNN, 7XNN, CXNN. -/
theorem test_decode_immediates :
    decode 0x332A = .ok (.seImm 3 0x2A) ∧
      decode 0x4F01 = .ok (.sneImm 15 0x01) ∧
      decode 0x6A2A = .ok (.ldImm 10 0x2A) ∧
      decode 0x70FF = .ok (.addImm 0 0xFF) ∧
      decode 0xC30F = .ok (.rnd 3 0x0F) := by
  decide

/-- R86: 5XY0, 9XY0, 8XY0 to 8XY7, 8XYE. -/
theorem test_decode_registers :
    decode 0x5120 = .ok (.seReg 1 2) ∧
      decode 0x9340 = .ok (.sneReg 3 4) ∧
      decode 0x8120 = .ok (.ldReg 1 2) ∧
      decode 0x8341 = .ok (.orReg 3 4) ∧
      decode 0x8562 = .ok (.andReg 5 6) ∧
      decode 0x8783 = .ok (.xorReg 7 8) ∧
      decode 0x89A4 = .ok (.addReg 9 10) ∧
      decode 0x8BC5 = .ok (.sub 11 12) ∧
      decode 0x8DE6 = .ok (.shr 13 14) ∧
      decode 0x8F17 = .ok (.subn 15 1) ∧
      decode 0x812E = .ok (.shl 1 2) := by
  decide

/-- R86: DXYN, EX9E, EXA1. -/
theorem test_decode_displayAndKeys :
    decode 0xD12F = .ok (.drw 1 2 15) ∧
      decode 0xE59E = .ok (.skp 5) ∧
      decode 0xEFA1 = .ok (.sknp 15) ∧
      decode 0xE59F = .error (.unknownWord 0xE59F) := by
  decide

/-- R86: the nine rows of family F. -/
theorem test_decode_familyF :
    decode 0xF107 = .ok (.ldVxDt 1) ∧
      decode 0xF20A = .ok (.ldVxK 2) ∧
      decode 0xF315 = .ok (.ldDtVx 3) ∧
      decode 0xF418 = .ok (.ldStVx 4) ∧
      decode 0xF51E = .ok (.addI 5) ∧
      decode 0xF629 = .ok (.ldF 6) ∧
      decode 0xF733 = .ok (.ldB 7) ∧
      decode 0xF855 = .ok (.storeRegs 8) ∧
      decode 0xF965 = .ok (.loadRegs 9) ∧
      decode 0xF075 = .error (.unknownWord 0xF075) := by
  decide

/-- R53, R80: the first byte is the high one, and the rest of the list comes back; one byte is no instruction. -/
theorem test_decodeBytes :
    decodeBytes [0x6A, 0x2A, 0x12] = .ok (.ldImm 10 0x2A, [0x12]) ∧ decodeBytes [0x6A] = .error .truncated ∧
      decodeTableWord 16 0x6A2A = some (.ldImm 10 0x2A) ∧ encodeBytes (.ldImm 10 0x2A) = [0x6A, 0x2A] := by
  decide

/-! ## One step of each instruction -/

/-- W1, S17. -/
theorem test_cls :
    after (fun t => (t.fb.pixel 0 0, t.fb.pixel 639 319, t.readReg 15, t.pc)) (runs 0x00E0 (regs [(15, 7)])) =
      some (255, 255, 7, 0x202) := by
  decide +kernel

/-- K9. -/
theorem test_ret :
    after (fun t => (t.pc, t.stack)) (runs 0x00EE { State.reset with pc := 0x400, stack := [0x30A, 0x202] }) =
      some (0x30A, [0x202]) := by
  decide

/-- K8. -/
theorem test_ret_empty :
    after (fun t => (latch t, t.pc)) (runs 0x00EE State.reset) =
      some ((true, 4, 0x200, 0x00EE, 0), 0x200) := by
  decide

/-- K1. -/
theorem test_jp :
    after (fun t => t.pc) (runs 0x1ABC State.reset) =
      some 0xABC := by
  decide

/-- K4. -/
theorem test_call :
    after (fun t => (t.stack, t.pc)) (runs 0x2300 State.reset) =
      some ([0x202], 0x300) := by
  decide

/-- K7. -/
theorem test_call_full :
    after (fun t => (latch t, t.stack.length, t.pc)) (runs 0x2300 full) =
      some ((true, 5, 0x200, 0x2300, 0x202), 16, 0x200) := by
  decide

/-- S7. -/
theorem test_seImm :
    after (fun t => t.pc) (runs 0x332A (regs [(3, 0x2A)])) =
      some 0x204 := by
  decide

/-- S7. -/
theorem test_seImm_not :
    after (fun t => t.pc) (runs 0x332B (regs [(3, 0x2A)])) =
      some 0x202 := by
  decide

/-- Q1. -/
theorem test_sneImm :
    after (fun t => t.pc) (runs 0x432A (regs [(3, 0x2A)])) =
      some 0x202 := by
  decide

/-- Q1. -/
theorem test_sneImm_skip :
    after (fun t => t.pc) (runs 0x432B (regs [(3, 0x2A)])) =
      some 0x204 := by
  decide

/-- Q3. -/
theorem test_seReg :
    after (fun t => t.pc) (runs 0x5120 (regs [(1, 7), (2, 7)])) =
      some 0x204 := by
  decide

/-- Q4. -/
theorem test_seReg_not :
    after (fun t => t.pc) (runs 0x5120 (regs [(1, 7), (2, 8)])) =
      some 0x202 := by
  decide

/-- Q6. -/
theorem test_sneReg :
    after (fun t => t.pc) (runs 0x9120 (regs [(1, 7), (2, 8)])) =
      some 0x204 := by
  decide

/-- Q7. -/
theorem test_sneReg_same :
    after (fun t => t.pc) (runs 0x9110 (regs [(1, 9)])) =
      some 0x202 := by
  decide

/-- Q10. -/
theorem test_skp :
    after (fun t => t.pc) (runs 0xE59E (hold 15 (regs [(5, 15)]))) =
      some 0x204 := by
  decide

/-- Q13. -/
theorem test_skp_keyIndex :
    after (fun t => (latch t, t.pc)) (runs 0xE59E (regs [(5, 16)])) =
      some ((true, 6, 0x200, 0xE59E, 16), 0x200) := by
  decide

/-- Q12. -/
theorem test_sknp :
    after (fun t => t.pc) (runs 0xE5A1 State.reset) =
      some 0x204 := by
  decide

/-- Q14. -/
theorem test_sknp_keyIndex :
    after (fun t => latch t) (runs 0xE5A1 (regs [(5, 255)])) =
      some (true, 6, 0x200, 0xE5A1, 255) := by
  decide

/-- A1. -/
theorem test_ldImm :
    after (fun t => (t.readReg 10, t.pc)) (runs 0x6A2A State.reset) =
      some (0x2A, 0x202) := by
  decide

/-- A3. -/
theorem test_addImm :
    after (fun t => (t.readReg 0, t.readReg 15)) (runs 0x70FF (regs [(0, 5)])) =
      some (4, 0) := by
  decide

/-- A5. -/
theorem test_addImm_VF :
    after (fun t => t.readReg 15) (runs 0x7F01 (regs [(15, 0xFF)])) =
      some 0 := by
  decide

/-- A6. -/
theorem test_ldReg :
    after (fun t => t.readReg 1) (runs 0x8120 (regs [(2, 9)])) =
      some 9 := by
  decide

/-- A7. -/
theorem test_orReg :
    after (fun t => (t.readReg 1, t.readReg 15)) (runs 0x8121 (regs [(1, 0x0F), (2, 0xF0), (15, 1)])) =
      some (0xFF, 1) := by
  decide

/-- A8. -/
theorem test_andReg :
    after (fun t => t.readReg 1) (runs 0x8122 (regs [(1, 0x3C), (2, 0x0F)])) =
      some 0x0C := by
  decide

/-- A9. -/
theorem test_xorReg :
    after (fun t => t.readReg 1) (runs 0x8123 (regs [(1, 0xFF), (2, 0x0F)])) =
      some 0xF0 := by
  decide

/-- S2. -/
theorem test_addReg :
    after (fun t => (t.readReg 1, t.readReg 15)) (runs 0x8124 (regs [(1, 250), (2, 10)])) =
      some (4, 1) := by
  decide

/-- A12. -/
theorem test_addReg_VF :
    after (fun t => (t.readReg 1, t.readReg 15)) (runs 0x81F4 (regs [(1, 0xFF), (15, 1)])) =
      some (0, 1) := by
  decide

/-- S4. -/
theorem test_sub :
    after (fun t => (t.readReg 1, t.readReg 15)) (runs 0x8125 (regs [(1, 5), (2, 10)])) =
      some (251, 0) := by
  decide

/-- A15. -/
theorem test_sub_VF :
    after (fun t => t.readReg 15) (runs 0x8F15 (regs [(15, 5), (1, 10)])) =
      some 0 := by
  decide

/-- A17. -/
theorem test_shr :
    after (fun t => (t.readReg 1, t.readReg 2, t.readReg 15)) (runs 0x8126 (regs [(1, 0xFF), (2, 2)])) =
      some (0x7F, 2, 1) := by
  decide

/-- A19. -/
theorem test_shr_VF :
    after (fun t => t.readReg 15) (runs 0x8F06 (regs [(15, 3)])) =
      some 1 := by
  decide

/-- A20. -/
theorem test_subn :
    after (fun t => (t.readReg 1, t.readReg 15)) (runs 0x8127 (regs [(1, 10), (2, 5)])) =
      some (251, 0) := by
  decide

/-- A23. -/
theorem test_subn_VF :
    after (fun t => t.readReg 15) (runs 0x8F17 (regs [(15, 5), (1, 10)])) =
      some 1 := by
  decide

/-- A24. -/
theorem test_shl :
    after (fun t => (t.readReg 1, t.readReg 15)) (runs 0x810E (regs [(1, 0x81)])) =
      some (0x02, 1) := by
  decide

/-- A25. -/
theorem test_shl_y :
    after (fun t => (t.readReg 1, t.readReg 2, t.readReg 15)) (runs 0x812E (regs [(1, 0x40), (2, 0xFF)])) =
      some (0x80, 0xFF, 0) := by
  decide

/-- M1. -/
theorem test_ldI :
    after (fun t => t.i) (runs 0xA300 (atI 0xABC [] State.reset)) =
      some 0x300 := by
  decide

/-- K11. -/
theorem test_jpV0 :
    after (fun t => t.pc) (runs 0xBFFF (regs [(0, 0xFF)])) =
      some 0x10FE := by
  decide

/-- K12. -/
theorem test_jpV0_V0 :
    after (fun t => t.pc) (runs 0xB300 (regs [(0, 2), (3, 0x50)])) =
      some 0x302 := by
  decide

/-- X2: the value is the same for every byte the random port can give. -/
theorem test_rnd_masked :
    after (fun t => (t.draws, t.pc)) (runs 0xC300 (regs [(3, 0x55)])) = some (1, 0x202) ∧
      after (fun t => t.readReg 3) (runs 0xC300 (regs [(3, 0x55)])) = some (Config.rand8 0 &&& 0) := by
  exact ⟨by decide, rfl⟩

/-- W6. -/
theorem test_drw :
    after (fun t => (t.fb.pixel 69 0, t.fb.pixel 70 0, t.fb.pixel 79 9, t.fb.pixel 80 0, t.fb.pixel 70 10, t.readReg 15)) (runs 0xD011 (atI 0x300 [0x01] (regs [(15, 1)]))) =
      some (0, 255, 255, 0, 0, 0) := by
  decide +kernel

/-- W9. -/
theorem test_drw_clipped_last :
    after (fun t => (t.fb.pixel 630 310, t.fb.pixel 639 319, t.fb.pixel 629 310, t.fb.pixel 630 309, onInRow 310 t)) (runs 0xD011 (atI 0x300 [0xFF] (regs [(0, 63), (1, 31)]))) =
      some (255, 255, 0, 0, 0) := by
  decide +kernel

/-- T1. -/
theorem test_ldVxDt :
    after (fun t => (t.readReg 4, t.dt)) (runs 0xF407 { State.reset with dt := 0x3C }) =
      some (0x3C, 0x3C) := by
  decide

/-- I1. -/
theorem test_ldVxK_none :
    after (fun t => (t.pc, t.readReg 3)) (runs 0xF30A (regs [(3, 9)])) =
      some (0x200, 9) := by
  decide

/-- I2. -/
theorem test_ldVxK :
    after (fun t => (t.readReg 15, t.pc)) (runs 0xFF0A (hold 9 (hold 3 State.reset))) =
      some (3, 0x202) := by
  decide

/-- T2. -/
theorem test_ldDtVx :
    after (fun t => t.dt) (runs 0xF415 (regs [(4, 0x3C)])) =
      some 0x3C := by
  decide

/-- T3. -/
theorem test_ldStVx :
    after (fun t => (t.st, t.out)) (runs 0xF418 (regs [(4, 2)])) =
      some (2, []) := by
  decide

/-- M4. -/
theorem test_addI :
    after (fun t => (t.i, t.readReg 15)) (runs 0xF21E (atI 0xFFF [] (regs [(2, 1)]))) =
      some (0x1000, 0) := by
  decide

/-- M5. -/
theorem test_addI_wraps :
    after (fun t => t.i) (runs 0xF21E (atI 0xFFF0 [] (regs [(2, 0x20)]))) =
      some 0x0010 := by
  decide

/-- M7. -/
theorem test_ldF :
    after (fun t => t.i) (runs 0xF029 (regs [(0, 255)])) =
      some 0x4FB := by
  decide

/-- M8. -/
theorem test_ldB_top :
    after (fun t => (t.readByte 4092, t.readByte 4093, t.readByte 4094, t.i)) (runs 0xF033 (atI 4092 [] (regs [(0, 255)]))) =
      some (2, 5, 5, 4092) := by
  decide

/-- M9. -/
theorem test_ldB_bounds :
    after (fun t => (latch t, t.readByte 4093)) (runs 0xF033 (atI 4093 [] (regs [(0, 255)]))) =
      some ((true, 3, 0x200, 0xF033, 4095), 0) := by
  decide

/-- S15. -/
theorem test_storeRegs :
    after (fun t => (t.readByte 0x300, t.readByte 0x301, t.readByte 0x302, t.i)) (runs 0xF155 (atI 0x300 [] (regs [(0, 0x11), (1, 0x22), (2, 0x33)]))) =
      some (0x11, 0x22, 0, 0x302) := by
  decide

/-- M16. -/
theorem test_storeRegs_bounds :
    after (fun t => (latch t, t.readByte 4080, t.i)) (runs 0xFF55 (atI 4080 [] (regs [(0, 0x10)]))) =
      some ((true, 3, 0x200, 0xFF55, 4095), 0, 4080) := by
  decide

/-- M19. -/
theorem test_loadRegs :
    after (fun t => (t.readReg 0, t.readReg 1, t.readReg 2, t.readReg 3, t.i)) (runs 0xF265 (atI 0x300 [1, 5, 7] (regs [(3, 0x77)]))) =
      some (1, 5, 7, 0x77, 0x303) := by
  decide

/-- M21. -/
theorem test_loadRegs_bounds :
    after (fun t => (latch t, t.readReg 0, t.readReg 1, t.i)) (runs 0xF165 (atI 4094 [0x22] (regs [(0, 9), (1, 9)]))) =
      some ((true, 2, 0x200, 0xF165, 4095), 9, 9, 4094) := by
  decide

/-! ## The cycle, the other transactions, and the placing of a word -/

/-- Y1. -/
theorem test_fetch_last :
    after (fun t => (t.readReg 0, t.pc)) (runs 0x6001 { State.reset with pc := 4093 }) =
      some (1, 4095) := by
  decide

/-- Y2. -/
theorem test_fetch_outside :
    after (fun t => (latch t, t.pc)) (step { State.reset with pc := 4094 }) =
      some ((true, 1, 4094, 0, 4094), 4094) := by
  decide

/-- Y5. -/
theorem test_unknown_word :
    after (fun t => (t.pc, t.readReg 1, t.i, t.fault.valid)) (runs 0xF0FF (atI 0x123 [] (regs [(1, 7)]))) =
      some (0x202, 7, 0x123, false) := by
  decide

/-- S11. -/
theorem test_tick :
    after (fun t => (t.dt, t.st, t.out)) (perform .tick { State.reset with dt := 0, st := 3 }) =
      some (0, 2, [.beep]) := by
  decide

/-- I8. -/
theorem test_press_release :
    after (fun t => (t.keyHeld 5, t.keyHeld 6)) (perform (.release 5) (hold 5 (hold 6 State.reset))) =
      some (false, true) := by
  decide

/-- W23. -/
theorem test_fbRead :
    after (fun t => t.out) (perform (.fbRead 5 5) { State.reset with fb := State.reset.fb.toggle 5 1023 }) =
      some [.fbByte 255] := by
  decide +kernel

/-- Z1, I9. -/
theorem test_reset :
    after (fun t => (t.readReg 2, t.dt, t.stack, t.fault.valid, t.keyHeld 2)) (perform .reset (hold 2 { full with dt := 4, fault := { full.fault with valid := true } })) =
      some (0, 0, [], false, true) := by
  decide

/-- S1. -/
theorem test_load :
    after (fun t => (t.readByte 0x1FF, t.readByte 0x200, t.readByte 0x202, t.readByte 0x203, t.out)) (perform (.load [0x12, 0x34, 0x56]) State.reset) =
      some (0, 0x12, 0x56, 0, [.loadOk true]) := by
  decide

/-- Z5. -/
theorem test_loadFailed :
    after (fun t => (t.readByte 0x300, t.pc, t.out)) (perform .loadFailed (atI 0x300 [7] State.reset)) =
      some (0, 0x200, [.loadOk false]) := by
  decide

/-- R244: before the first `Reset` or `Load` a `Cycle` has no result, and `Load` gives the state it always gives. -/
theorem test_beforeReset :
    step { State.reset with started := false } = .refused .beforeReset ∧
      after (fun t => (t.started, t.pc, t.readByte 0x200)) (perform (.load [0x12]) { State.reset with started := false, pc := 7 }) =
        some (true, 0x200, 0x12) := by
  exact ⟨rfl, by decide⟩

/-- R217: the first pending transaction is the step. -/
theorem test_pending :
    after (fun t => (t.pending, t.dt)) (step { State.reset with dt := 7, pending := [.tick, .cycle] }) =
      some ([.cycle], 6) := by
  decide

/-! ## Witnesses: for each statement with hypotheses, a state and operands that meet them, clause by clause -/

/-- `EncodeOfDecodeIsTheWord`. -/
theorem witness_encodeOfDecode : decode 0xF965 = .ok (.loadRegs 9) := by decide

/-- `DecodeFollowsTheOpcodeMap`: a word that decodes and meets its row, and one that meets none. -/
theorem witness_opcodeMap :
    decode 0x8126 = .ok (.shr 1 2) ∧ rowOf (.shr 1 2) ∈ opTable ∧
      (0x8126 : Word) &&& (rowOf (.shr 1 2)).mask = (rowOf (.shr 1 2)).bits ∧
      ∀ r ∈ opTable, (0x5121 : Word) &&& r.mask ≠ r.bits := by
  decide

/-- `UnknownWordsByFamily`: a word of each kind, beside its neighbour that is an instruction. -/
theorem witness_unknownWords :
    (nibble 0x0000 3 = 0x0 ∧ (0x0000 : Word) ≠ 0x00E0 ∧ (0x0000 : Word) ≠ 0x00EE) ∧
      (nibble 0x9001 3 = 0x9 ∧ nibble 0x9001 0 ≠ 0) ∧ (nibble 0x812F 3 = 0x8 ∧ nibble 0x812F 0 = 0xF) ∧
      (nibble 0xE59F 3 = 0xE ∧ fieldNN 0xE59F ∉ ([0x9E, 0xA1] : List Byte)) ∧
      (nibble 0xF075 3 = 0xF ∧ fieldNN 0xF075 = 0x75) ∧
      decode 0x812E = .ok (.shl 1 2) := by
  decide

/-- `StepPerformsTheNextTransaction`: an empty schedule, and one with a transaction in it. -/
theorem witness_schedule :
    State.reset.pending = [] ∧ ({ State.reset with pending := [.tick] } : State).pending = .tick :: [] := by
  decide

/-- `StepRunsTheDecodedInstruction`: PC at its last fetchable value, nothing pending, and a pending `Cycle`. -/
theorem witness_stepRuns :
    ∃ s : State, s.started = true ∧ s.fault.valid = false ∧ s.pc.toNat + 1 < 4095 ∧
      decode (s.readByte s.pc.toNat ++ s.readByte (s.pc.toNat + 1)) = .ok (.ldImm 0 1) ∧ s.pending = [] ∧
      ({ s with pending := [.cycle] } : State).pending = .cycle :: [] :=
  ⟨{ State.reset with pc := 4093, mem := [(4093, 0x60), (4094, 0x01)] }, rfl, by decide, by decide, by decide, rfl, rfl⟩

/-- `UnknownWordMovesPcOnly`: the empty memory at reset. -/
theorem witness_unknownStep :
    State.reset.fault.valid = false ∧ State.reset.fetch = some 0 ∧
      ∀ r ∈ opTable, (0 : Word) &&& r.mask ≠ r.bits := by
  decide

/-- `FetchOutsideMemoryFaults`: PC on each side of the bound. -/
theorem witness_fetchOutside :
    (∃ s : State, 4094 ≤ s.pc.toNat ∧ s.fault.valid = false) ∧
      ∃ s : State, s.pc.toNat < 4094 ∧ s.pc.toNat = 4093 :=
  ⟨⟨{ State.reset with pc := 4094 }, by decide, rfl⟩, ⟨{ State.reset with pc := 4093 }, by decide, by decide⟩⟩

/-- A halted state, for the statements about one. -/
def halted : State :=
  { State.reset with fault := { valid := true, cause := 1, pc := 4094, opcode := 0, info := 4094 } }

/-- `HaltedCoreIgnoresCycle`: a halted state, and the three transactions that clear the latch. -/
theorem witness_halted :
    halted.fault.valid = true ∧
      after (fun t => t.fault.valid) (perform .reset halted) = some false ∧
      after (fun t => t.fault.valid) (perform (.load [0x60]) halted) = some false ∧
      after (fun t => t.fault.valid) (perform .loadFailed halted) = some false := by
  decide

/-- `FaultsArePrecise`: a cycle that faults at the fetch, and one that faults in an instruction. -/
theorem witness_faultsArePrecise :
    (∃ s t : State, s.fault.valid = false ∧ cycle s = .next t ∧ t.fault.valid = true ∧ s.fetch = none) ∧
      ∃ s t : State, s.fault.valid = false ∧ cycle s = .next t ∧ t.fault.valid = true ∧ s.fetch = some 0x00EE :=
  ⟨⟨{ State.reset with pc := 4094 }, _, rfl, rfl, rfl, by decide⟩,
    ⟨State.reset.placeWord 0x00EE, _, rfl, rfl, rfl, by decide⟩⟩

/-- `FaultCausesAsTabled`, first part: each instruction that can raise does so somewhere. -/
theorem witness_faultCauses :
    ∀ p ∈ [((.ret : Instr), State.reset), (.call 0x300, full), (.skp 5, regs [(5, 16)]), (.sknp 5, regs [(5, 255)]),
        (.ldB 0, atI 4093 [] State.reset), (.storeRegs 15, atI 4080 [] State.reset),
        (.loadRegs 1, atI 4094 [] State.reset), (.drw 0 1 2, atI 4094 [] State.reset)],
      p.2.fault.valid = false ∧ after (fun t => t.fault.valid) (exec p.1 p.2) = some true := by
  decide

/-- `FaultCausesAsTabled`, second and third part. -/
theorem witness_faultCauses_cycle :
    (∃ s t : State, s.fault.valid = false ∧ 4094 ≤ s.pc.toNat ∧ cycle s = .next t) ∧
      ∃ (s t : State) (w : Word) (e : DecodeReject), s.fault.valid = false ∧ s.fetch = some w ∧ decode w = .error e ∧
        cycle s = .next t :=
  ⟨⟨{ State.reset with pc := 4095 }, _, rfl, by decide, rfl⟩, ⟨State.reset, _, 0, _, rfl, by decide, rfl, rfl⟩⟩

/-- `CallPushesTheAdvancedPc`, `CallThenReturnComesBack`: a stack with one place left, and a full one. -/
theorem witness_call :
    ({ State.reset with stack := List.replicate 15 0x202 } : State).stack.length ≠ State.reset.params.stackDepth ∧
      full.stack.length = full.params.stackDepth := by
  decide

/-- `ReturnPopsPc`: a stack with an entry, and an empty one. -/
theorem witness_ret : full.stack = 0x202 :: List.replicate 15 0x202 ∧ State.reset.stack = [] := by decide

/-- `SkipOnRegisters`: words of families 5 and 9 whose low nibble is not 0. -/
theorem witness_skipOnRegisters :
    (nibble 0x5121 3 = 5 ∧ nibble 0x5121 0 ≠ 0) ∧ (nibble 0x9001 3 = 9 ∧ nibble 0x9001 0 ≠ 0) := by
  decide

/-- `SkipOnKey`: the last key number, held and not, and the first value above it. -/
theorem witness_skipOnKey :
    ((regs [(5, 15)]).readReg 5).toNat = (15 : Key).val ∧ (hold 15 (regs [(5, 15)])).keyHeld 15 = true ∧
      (regs [(5, 15)]).keyHeld 15 = false ∧ 15 < ((regs [(5, 16)]).readReg 5).toNat := by
  decide

/-- `AddSetsCarry`, `SubtractSetsNotBorrow`, `ShiftsByOne`: a destination that is not `VF`, with and without carry and
borrow. -/
theorem witness_flags :
    (1 : Reg) ≠ 15 ∧ ((regs [(1, 200), (2, 56)]).readReg 1).toNat + ((regs [(1, 200), (2, 56)]).readReg 2).toNat > 255 ∧
      ¬ ((regs [(1, 200), (2, 55)]).readReg 1).toNat + ((regs [(1, 200), (2, 55)]).readReg 2).toNat > 255 ∧
      ((regs [(1, 5), (2, 10)]).readReg 1).toNat < ((regs [(1, 5), (2, 10)]).readReg 2).toNat := by
  decide

/-- `OnlyFlagWritersChangeVF`: a flag writer and an instruction with destination 15 that change `VF`, and a drawing that
moves PC. -/
theorem witness_flagWriters :
    (∃ s t : State, exec (.addReg 1 2) s = .next t ∧ t.readReg 15 ≠ s.readReg 15) ∧
      (∃ s t : State, exec (.ldImm 15 1) s = .next t ∧ t.readReg 15 ≠ s.readReg 15) ∧
      ∃ s t : State, exec (.drw 0 1 0) s = .next t ∧ t.pc = s.pc + 2 :=
  ⟨⟨regs [(1, 200), (2, 56)], _, rfl, by decide⟩, ⟨State.reset, _, rfl, by decide⟩, ⟨State.reset, _, rfl, rfl⟩⟩

/-- `RandomIsMasked`, `OnlyRandomSamplesTheRandPort`: an instruction that is not CXNN, and a step of it. -/
theorem witness_notRandom :
    (∀ x nn, (.cls : Instr) ≠ .rnd x nn) ∧ ∃ t, exec .cls State.reset = .next t :=
  ⟨nofun, _, rfl⟩

/-- `BcdWritesThreeDigits`: `I` on each side of the bound. -/
theorem witness_bcd :
    (atI 4092 [] State.reset).i.toNat + 2 < 4095 ∧ 4095 ≤ (atI 4093 [] State.reset).i.toNat + 2 := by decide

/-- `StoreRegistersWritesTheBlock`, `LoadRegistersReadsTheBlock`: `I` on each side of the bound, for the shortest and the
longest block. -/
theorem witness_registerBlock :
    (atI 4079 [] State.reset).i.toNat + (15 : Reg).val < 4095 ∧ 4095 ≤ (atI 4080 [] State.reset).i.toNat + (15 : Reg).val ∧
      (atI 4094 [] State.reset).i.toNat + (0 : Reg).val < 4095 ∧ 4095 ≤ (atI 4095 [] State.reset).i.toNat + (0 : Reg).val := by
  decide

/-- `StoredBytesAreFetchedNext`: FX55 just below its own target, as in program P5. -/
theorem witness_storedBytes :
    ∃ s t : State, s.i.toNat + (1 : Reg).val < 4095 ∧ (1 : Reg).val = (0 : Reg).val + 1 ∧
      exec (.storeRegs 1) s = .next t ∧ t.pc.toNat = s.i.toNat + (0 : Reg).val :=
  ⟨{ State.reset with pc := 0x206, i := 0x208 }, _, by decide, rfl, rfl, by decide⟩

/-- `OnlyStoresAndTheHostWriteMemory`: a byte that each of the two stores changes, and one that `Load` changes. -/
theorem witness_memoryWriters :
    after (fun t => t.readByte 0x302) (exec (.ldB 0) (atI 0x300 [] (regs [(0, 9)]))) = some 9 ∧
      after (fun t => t.readByte 0x301) (exec (.storeRegs 1) (atI 0x300 [] (regs [(1, 9)]))) = some 9 ∧
      after (fun t => t.readByte 0x200) (perform (.load [9]) State.reset) = some 9 := by
  decide

/-- `TickCountsDown`, `TicksRunTheTimersOut`: a run that has begun, two ticks and another transaction pending. -/
theorem witness_ticks :
    State.reset.started = true ∧
    ({ State.reset with dt := 1, st := 2, pending := [.tick, .tick, .cycle] } : State).pending =
      List.replicate 2 .tick ++ [.cycle] := by
  decide

/-- `PressAndReleaseSetOneFlag`: a run that has begun, and another key. -/
theorem witness_otherKey : State.reset.started = true ∧ (6 : Key) ≠ 5 := by decide

/-- `WaitForKey`: no key held, and the lowest of two held keys. -/
theorem witness_waitForKey :
    (∀ k, State.reset.keyHeld k = false) ∧ (hold 9 (hold 3 State.reset)).keyHeld 3 = true ∧
      ∀ j, j < 3 → (hold 9 (hold 3 State.reset)).keyHeld j = false := by
  decide

/-- `OnlyPressAndReleaseWriteKeys`: a transaction that is neither. -/
theorem witness_notAKey :
    (∀ k, (.tick : Transaction) ≠ .press k ∧ (.tick : Transaction) ≠ .release k) ∧
      ∃ t, perform .tick State.reset = .next t :=
  ⟨fun _ => ⟨nofun, nofun⟩, _, rfl⟩

/-- `ClearFillsTheScreen`: the last pixel of the default screen. -/
theorem witness_lastPixel : 639 < State.reset.params.screenW ∧ 319 < State.reset.params.screenH := by decide

/-- A sprite row `80` at `I`, at the lower right corner of the default screen. -/
def corner : State := atI 0x300 [0x80] (regs [(0, 63), (1, 31)])

/-- The last pixel of the default screen is a target of that drawing, its left neighbour block is not. -/
theorem corner_target : DrawTarget corner 0 1 1 639 319 ∧ ¬ DrawTarget corner 0 1 1 629 319 := by
  have hx : (corner.readReg 0).toNat * 10 = 630 := by decide
  have hy : (corner.readReg 1).toNat * 10 = 310 := by decide
  unfold DrawTarget SpriteCovers
  rw [hx, hy]
  refine ⟨⟨⟨0, 0, by decide, by decide, by decide, ?_⟩, by decide, by decide⟩, ?_⟩
  · omega
  · rintro ⟨⟨row, bit, -, -, -, h, -⟩, -⟩
    omega

/-- `DrawTogglesItsTargets`: every clause; the drawing in bounds (also the empty one, at any `I`) and out of bounds, a target
and a pixel that is none, a target that is on and all targets off. -/
theorem witness_draw :
    ((0 : BitVec 4) = 0 ∨ (atI 0xFFFF [] State.reset).i.toNat + (0 : BitVec 4).toNat - 1 < 4095) ∧
      ((1 : BitVec 4) = 0 ∨ (atI 4094 [] State.reset).i.toNat + (1 : BitVec 4).toNat - 1 < 4095) ∧
      ((2 : BitVec 4) ≠ 0 ∧ 4095 ≤ (atI 4094 [] State.reset).i.toNat + (2 : BitVec 4).toNat - 1) ∧
      DrawTarget corner 0 1 1 639 319 ∧ ¬ DrawTarget corner 0 1 1 629 319 ∧
      ∀ px py, corner.fb.pixel px py ≠ 255 :=
  ⟨by decide, by decide, by decide, corner_target.1, corner_target.2, fun px py => by
    have h : corner.fb.rows = [] := rfl
    rw [ne_eq, Framebuffer.pixel_eq_on]
    simp [Framebuffer.rowBits, h]⟩

/-- `DrawTogglesItsTargets`: a target that is on before. -/
theorem witness_draw_collision :
    ∃ s : State, DrawTarget s 0 1 1 639 319 ∧ s.fb.pixel 639 319 = 255 :=
  ⟨{ corner with fb := Framebuffer.filled 640 320 .on }, corner_target.1,
    Framebuffer.pixel_filled 640 320 .on (by decide) (by decide)⟩

/-- `DrawTwiceRestoresTheScreen`: two drawings in bounds, from neither of whose coordinates is `VF`. -/
theorem witness_drawTwice :
    ∃ t u : State, (0 : Reg) ≠ 15 ∧ (1 : Reg) ≠ 15 ∧ corner.i.toNat + (1 : BitVec 4).toNat - 1 < 4095 ∧
      exec (.drw 0 1 1) corner = .next t ∧ exec (.drw 0 1 1) t = .next u ∧ DrawTarget corner 0 1 1 639 319 ∧
      ∀ px py, corner.fb.pixel px py ≠ 255 :=
  ⟨_, _, by decide, by decide, by decide, rfl, rfl, corner_target.1, witness_draw.2.2.2.2.2⟩

/-- `FbReadGivesThePixel`: a run that has begun, the corners inside the screen, and the first column and row outside it. -/
theorem witness_fbRead :
    State.reset.started = true ∧
    (639 < State.reset.params.screenW ∧ 319 < State.reset.params.screenH) ∧
      ¬ (640 < State.reset.params.screenW ∧ 0 < State.reset.params.screenH) ∧
      ¬ (0 < State.reset.params.screenW ∧ 320 < State.reset.params.screenH) := by
  decide

/-- `ResetForgetsThePreviousRun`: two states of different runs with the same keys. -/
theorem witness_resetForgets :
    ∃ s s' t t' : State, s ≠ s' ∧ s.key = s'.key ∧ s.params = s'.params ∧ perform .reset s = .next t ∧
      perform .reset s' = .next t' :=
  ⟨State.reset, halted, _, _, by decide, rfl, rfl, rfl, rfl⟩

/-- A state at power-on, before the first `Reset` or `Load`. -/
def powerOn : State := { State.reset with started := false, pc := 0xBEEF, v := Vector.replicate 16 0x5A }

/-- `NothingButResetAndLoadBeforeTheFirst`: two such states with different contents, a transaction that begins no run, and
the three that begin one. -/
theorem witness_powerOn :
    powerOn.started = false ∧ ({ powerOn with dt := 7 } : State).started = false ∧
      ((.tick : Transaction) ≠ .reset ∧ (.tick : Transaction) ≠ .loadFailed ∧ ∀ rom, (.tick : Transaction) ≠ .load rom) ∧
      ∀ tr ∈ ([.reset, .loadFailed, .load [0x60]] : List Transaction),
        tr = .reset ∨ tr = .loadFailed ∨ ∃ rom, tr = .load rom :=
  ⟨rfl, rfl, ⟨nofun, nofun, nofun⟩, by simp⟩

/-- `RunOnceBegunGoesOn`: a step that begins a run, and the one step of a run that is refused. -/
theorem witness_runGoesOn :
    after (fun t => t.started) (step { powerOn with pending := [.load []] }) = some true ∧ State.reset.started = true ∧
      after (fun _ => ()) (step { State.reset with pending := [.fbRead 0 320] }) = none := by
  decide

/-- `LoadCopiesTheRom`: an image of one byte, an address before it and the first one after it. -/
theorem witness_load :
    (0 < ([0x60] : List Byte).length ∧ 0 < 3583) ∧ 0x1FF < 0x200 ∧ 0x200 + min ([0x60] : List Byte).length 3583 ≤ 0x201 := by
  decide

/-- `FrameIsKeysTickCycle`: a frame with key 7 held. -/
theorem witness_frame :
    ∃ (keys : Vector Bool 16) (s : State), keys[7] = true ∧ s.started = true ∧ s.pending = frameTransactions keys [] ++ [] :=
  ⟨(hold 7 State.reset).key, { State.reset with pending := frameTransactions (hold 7 State.reset).key [] ++ [] }, by decide, rfl,
    rfl⟩

/-- `JumpToSelfIsAFixedPoint`: `JP 0x200` at 0x200 (K2). -/
theorem witness_jumpToSelf : AtEnd (State.reset.placeWord 0x1200) :=
  ⟨rfl, 0x1200, 0x200, by decide, by decide, by decide⟩

/-- `StepKeepsTheInvariant`: a state with a full stack and a byte of memory. -/
theorem witness_invariant : ∃ s t : State, Inv s ∧ step s = .next t :=
  ⟨{ full with mem := [(0x200, 0x6A)] }, _,
    { memory := by decide
      framebuffer := by simp [Framebuffer.wf, Cells.Wf, full, State.reset]
      stackDepth := by decide
      pc := by decide
      stackEntries := fun w hw => by rw [List.eq_of_mem_replicate hw]; decide
      cause := by decide }, rfl⟩

/-- `BlocksStayUniform`: a default screen with every pixel off, in the middle of a run. -/
theorem witness_blocks :
    ∃ s t : State, WholeBlocks s.params ∧ BlocksUniform s ∧ step s = .next t ∧ 639 < s.params.screenW ∧
      319 < s.params.screenH :=
  ⟨full, _, ⟨by decide, by decide⟩, fun _ _ _ _ => by simp [full, State.reset, Framebuffer.pixel, Framebuffer.rowBits], rfl, by decide, by decide⟩

/-- `SpecialRegistersWrittenOnlyByTheirInstructions`: a change of each of the four. -/
theorem witness_specialRegisters :
    after (fun t => t.i) (exec (.ldI 0x300) State.reset) = some 0x300 ∧
      after (fun t => t.dt) (exec (.ldDtVx 4) (regs [(4, 9)])) = some 9 ∧
      after (fun t => t.st) (exec (.ldStVx 4) (regs [(4, 9)])) = some 9 ∧
      after (fun t => t.stack) (exec (.call 0x300) State.reset) = some [0x202] := by
  decide

/-- `NoInstructionReadsTheSoundTimer`: an instruction that is not FX18. -/
theorem witness_notSound : ∀ x, (.cls : Instr) ≠ .ldStVx x := nofun

/-- `ProgramCounterMoves`: a step that faults, a skip taken and not, a wait and its end, and a plain advance. -/
theorem witness_pcMoves :
    State.reset.fault.valid = false ∧
      after (fun t => (t.fault.valid, t.pc)) (exec .ret State.reset) = some (true, 0x200) ∧
      after (fun t => (t.fault.valid, t.pc)) (exec (.seImm 0 0) State.reset) = some (false, 0x204) ∧
      after (fun t => (t.fault.valid, t.pc)) (exec (.ldVxK 0) State.reset) = some (false, 0x200) ∧
      after (fun t => (t.fault.valid, t.pc)) (exec (.ldImm 0 0) State.reset) = some (false, 0x202) := by
  decide

end Sys2Proof.Tests
end

section
/-! SUPPORT. Frames: which parts of the state each shared operation and each instruction may change. -/

namespace Sys2Proof.Safety

open Sys2Proof.Machine

/-! ## One rule per operation -/

theorem Keeps.refl (c : Touched) (s : State) : Keeps c s s := by
  constructor <;> intros <;> rfl

section
variable {c : Touched} {s t : State}

/-- PC is in no frame. -/
theorem Keeps.withPc (h : Keeps c s t) (pc : Word) : Keeps c s { t with pc := pc } := { h with }

theorem Keeps.advance (h : Keeps c s t) : Keeps c s t.advance := h.withPc _

theorem Keeps.skipIf (h : Keeps c s t) (b : Bool) : Keeps c s (t.skipIf b) :=
  t.skipIf_eq b ▸ h.withPc _

theorem Keeps.setReg (h : Keeps c s t) {x : Reg} (hx : x ∈ c.regs) (b : Byte) : Keeps c s (t.setReg x b) :=
  { h with
    regs := fun r hr => (t.readReg_setReg_ne b fun e : r = x => hr (e ▸ hx)).trans (h.regs r hr) }

theorem Keeps.setResultFlag (h : Keeps c s t) {x : Reg} (hx : x ∈ c.regs) (hf : regVF ∈ c.regs) (r : Byte)
    (b : Bool) : Keeps c s (t.setResultFlag x r b) :=
  (h.setReg hx r).setReg hf _

theorem Keeps.loadBlock (h : Keeps c s t) {rs : List Reg} (hrs : ∀ r ∈ rs, r ∈ c.regs) (base : Nat) :
    Keeps c s (t.loadBlock base rs) := by
  have fold : ∀ u, Keeps c s u → Keeps c s (rs.foldl (fun u r => u.setReg r (t.readByte (base + r.val))) u) := by
    induction rs with
    | nil => exact fun _ hu => hu
    | cons q rs ih =>
      exact fun u hu => ih (fun r hr => hrs r (by simp [hr])) _ (hu.setReg (hrs q (by simp)) _)
  exact fold t h

theorem Keeps.withIndex (h : Keeps c s t) (hc : c.index = true) (i : Word) : Keeps c s { t with i := i } :=
  { h with index := by simp [hc] }

theorem Keeps.addIndex (h : Keeps c s t) (hc : c.index = true) (n : Nat) : Keeps c s (t.addIndex n) :=
  h.withIndex hc _

theorem Keeps.withDt (h : Keeps c s t) (hc : c.dt = true) (dt : Byte) : Keeps c s { t with dt := dt } :=
  { h with dt := by simp [hc] }

theorem Keeps.withSt (h : Keeps c s t) (hc : c.st = true) (st : Byte) : Keeps c s { t with st := st } :=
  { h with st := by simp [hc] }

theorem Keeps.withDraws (h : Keeps c s t) (hc : c.draws = true) (n : Nat) : Keeps c s { t with draws := n } :=
  { h with draws := by simp [hc] }

theorem Keeps.withStack (h : Keeps c s t) (hc : c.stack = true) (l : List Word) : Keeps c s { t with stack := l } :=
  { h with stack := by simp [hc] }

theorem Keeps.withFb (h : Keeps c s t) (hc : c.fb = true) (fb : Framebuffer) : Keeps c s { t with fb := fb } :=
  { h with pixels := by simp [hc] }

/-- A block write changes no byte outside its block. -/
theorem Keeps.writeBlock (h : Keeps c s t) {bs : List Byte} (hbs : bs.length = c.memLen) :
    Keeps c s { t with mem := Memory.writeBlock t.mem c.memBase bs } :=
  { h with
    memory := fun a ha => by
      rw [← h.memory a ha]
      exact (Memory.read_writeBlock t.mem c.memBase bs a).trans (if_neg (hbs ▸ ha)) }

/-- The sixteen key flags, as a whole. -/
theorem Keeps.key_eq (h : Keeps c s t) : t.key = s.key :=
  Vector.ext fun k hk => h.keys ⟨k, hk⟩

end

end Sys2Proof.Safety

namespace Sys2Proof.Machine

open Sys2Proof.Safety

/-! ## What an instruction does -/

/-- What an instruction that raises no fault may change beside PC. -/
def touched (s : State) : Instr → Touched
  | .jp _ | .jpV0 _ | .seImm _ _ | .sneImm _ _ | .seReg _ _ | .sneReg _ _ | .skp _ | .sknp _ => {}
  | .call _ | .ret => { stack := true }
  | .ldImm x _ | .addImm x _ | .ldReg x _ | .orReg x _ | .andReg x _ | .xorReg x _ | .ldVxDt x | .ldVxK x =>
    { regs := [x] }
  | .addReg x _ | .sub x _ | .shr x _ | .subn x _ | .shl x _ => { regs := [x, 15] }
  | .rnd x _ => { regs := [x], draws := true }
  | .cls => { fb := true }
  | .drw _ _ _ => { regs := [15], fb := true }
  | .ldI _ | .addI _ | .ldF _ => { index := true }
  | .ldDtVx _ => { dt := true }
  | .ldStVx _ => { st := true }
  | .ldB _ => { memBase := s.index, memLen := 3 }
  | .storeRegs x => { index := true, memBase := s.index, memLen := x.val + 1 }
  | .loadRegs x => { regs := allRegs.filter (fun r => decide (r ≤ x)), index := true }

/-- Where an instruction that raises no fault leaves PC (R23). -/
def PcMoves (s t : State) : Instr → Prop
  | .jp nnn | .call nnn => t.pc = addrOperand nnn
  | .ret => t.pc ∈ s.stack
  | .jpV0 nnn => t.pc = byteOperand (s.readReg regV0) + addrOperand nnn
  | .seImm _ _ | .sneImm _ _ | .seReg _ _ | .sneReg _ _ | .skp _ | .sknp _ => t.pc = s.pc + 2 ∨ t.pc = s.pc + 4
  | .ldVxK _ => t.pc = s.pc ∨ t.pc = s.pc + 2
  | _ => t.pc = s.pc + 2

/-- `i` carried out from `s` to `t` without a fault: its frame, its move of PC, and how the parts it may write came
about. -/
structure CarriedOut (i : Instr) (s t : State) : Prop where
  keeps : Keeps (touched s i) s t
  pc : PcMoves s t i
  mem : t.mem = s.mem ∨
    ∃ bs, s.index + bs.length ≤ Config.memSize ∧ t.mem = Memory.writeBlock s.mem s.index bs := by exact .inl rfl
  fb : t.fb = s.fb ∨ t.fb = Framebuffer.filled s.params.screenW s.params.screenH s.params.clsFill ∨
    ∃ col row sprite, t.fb = (s.drawSprite col row sprite).fb := by exact .inl rfl
  stack : t.stack = s.stack ∨
    (s.stack.length ≠ s.params.stackDepth ∧ t.stack = (s.pc + 2) :: s.stack) ∨
    ∃ w, s.stack = w :: t.stack := by exact .inl rfl

/-- What an instruction can do: raise one fault and nothing else (R201), or be carried out. -/
def ExecResult (i : Instr) (s t : State) : Prop :=
  (∃ c info opcode, t = s.raise c info opcode) ∨ CarriedOut i s t

/-- A guarded block access gives the instruction's result once its work does when the block lies in memory. -/
theorem execResult_guardBlock {i : Instr} {s : State} {c : Cause} {base len : Nat} {opcode : Word} {done : State}
    (h : (len = 0 ∨ base + len ≤ Config.memSize) → CarriedOut i s done) :
    ExecResult i s (s.guardBlock c base len opcode done) := by
  rcases s.guardBlock_cases c base len opcode done with ⟨hok, e⟩ | ⟨-, e⟩ <;> rw [e]
  · exact .inr (h ((blockOk_iff base len).1 hok))
  · exact .inl ⟨_, _, _, rfl⟩

/-- The list of registers holds every one. -/
theorem mem_allRegs (r : Reg) : r ∈ allRegs := by
  revert r; decide

theorem skipIf_pc (s : State) (b : Bool) : (s.skipIf b).pc = s.pc + 2 ∨ (s.skipIf b).pc = s.pc + 4 := by
  rw [s.skipIf_eq]
  cases b
  · exact .inl rfl
  · exact .inr rfl

theorem carriedOut_skipIf {i : Instr} {s : State} (b : Bool) (hk : touched s i = {})
    (hp : PcMoves s (s.skipIf b) i) : CarriedOut i s (s.skipIf b) where
  keeps := hk ▸ (Keeps.refl _ s).skipIf b
  pc := hp
  mem := .inl (by rw [s.skipIf_eq])
  fb := .inl (by rw [s.skipIf_eq])
  stack := .inl (by rw [s.skipIf_eq])

theorem execResult_skipOnKey {i : Instr} {s : State} (x : Reg) (want : Bool) (opcode : Word)
    (h : ∀ b, CarriedOut i s (s.skipIf b)) : ExecResult i s (s.skipOnKey x want opcode) := by
  unfold State.skipOnKey
  split
  · exact .inr (h _)
  · exact .inl ⟨_, _, _, rfl⟩

/-- Every instruction answers a next state, of one of the two kinds. -/
theorem exec_result (i : Instr) (s : State) : ∃ t, exec i s = .next t ∧ ExecResult i s t := by
  have adv (c : Touched) : Keeps c s s.advance := (Keeps.refl c s).advance
  cases i
  case cls =>
    exact ⟨_, rfl, .inr { keeps := (adv _).withFb rfl _, pc := rfl, fb := .inr (.inl rfl) }⟩
  case ret =>
    rcases s.advance.pop_cases with ⟨-, e⟩ | ⟨w, rest, hs, e⟩ <;> simp only [exec, execRet, e]
    · exact ⟨_, rfl, .inl ⟨_, _, _, rfl⟩⟩
    · have hs : s.stack = w :: rest := hs
      exact ⟨_, rfl, .inr
        { keeps := ((adv _).withStack rfl rest).withPc w
          pc := by simp [PcMoves, hs]
          stack := .inr (.inr ⟨w, hs⟩) }⟩
  case call nnn =>
    rcases s.advance.push_cases s.advance.pc with ⟨-, e⟩ | ⟨hs, e⟩ <;> simp only [exec, execCall, e]
    · exact ⟨_, rfl, .inl ⟨_, _, _, rfl⟩⟩
    · exact ⟨_, rfl, .inr
        { keeps := ((adv _).withStack rfl (s.advance.pc :: s.stack)).withPc _
          pc := rfl
          stack := .inr (.inl ⟨hs, rfl⟩) }⟩
  case jp | jpV0 => exact ⟨_, rfl, .inr { keeps := (adv _).withPc _, pc := rfl }⟩
  case seImm | sneImm | seReg | sneReg => exact ⟨_, rfl, .inr (carriedOut_skipIf _ rfl (skipIf_pc s _))⟩
  case skp | sknp => exact ⟨_, rfl, execResult_skipOnKey _ _ _ fun b => carriedOut_skipIf b rfl (skipIf_pc s b)⟩
  case ldImm | addImm | ldReg | orReg | andReg | xorReg | ldVxDt =>
    exact ⟨_, rfl, .inr { keeps := (adv _).setReg (List.mem_singleton_self _) _, pc := rfl }⟩
  case addReg | sub | shr | subn | shl =>
    exact ⟨_, rfl, .inr
      { keeps := (adv _).setResultFlag (by simp [touched]) (by simp [touched, regVF]) _ _, pc := rfl }⟩
  case ldVxK x =>
    cases hk : s.firstHeld <;> simp only [exec, execLdVxK, hk]
    · exact ⟨_, rfl, .inr { keeps := (adv _).withPc _, pc := .inl (by simp) }⟩
    · exact ⟨_, rfl, .inr { keeps := (adv _).setReg (List.mem_singleton_self x) _, pc := .inr rfl }⟩
  case rnd x _ =>
    exact ⟨_, rfl, .inr { keeps := ((adv _).setReg (List.mem_singleton_self x) _).withDraws rfl _, pc := rfl }⟩
  case drw =>
    exact ⟨_, rfl, execResult_guardBlock fun _ =>
      { keeps := ((adv _).withFb rfl _).setReg (List.mem_singleton_self regVF) _
        pc := rfl
        fb := .inr (.inr ⟨_, _, _, rfl⟩) }⟩
  case ldI | ldF | addI => exact ⟨_, rfl, .inr { keeps := (adv _).withIndex rfl _, pc := rfl }⟩
  case ldDtVx => exact ⟨_, rfl, .inr { keeps := (adv _).withDt rfl _, pc := rfl }⟩
  case ldStVx => exact ⟨_, rfl, .inr { keeps := (adv _).withSt rfl _, pc := rfl }⟩
  case ldB x =>
    exact ⟨_, rfl, execResult_guardBlock fun hb =>
      { keeps := (adv (touched s (.ldB x))).writeBlock rfl
        pc := rfl
        mem := .inr ⟨bcdDigits (s.readReg x), by simpa [bcdDigits] using hb, rfl⟩ }⟩
  case storeRegs x =>
    have len : ((regBlock x).map s.readReg).length = x.val + 1 := by simp
    exact ⟨_, rfl, execResult_guardBlock fun hb =>
      { keeps := ((adv (touched s (.storeRegs x))).writeBlock len).addIndex rfl _
        pc := rfl
        mem := .inr ⟨(regBlock x).map s.readReg, by simpa [regCount] using hb, rfl⟩ }⟩
  case loadRegs x =>
    have hrs : ∀ r ∈ regBlock x, r ∈ (touched s (.loadRegs x)).regs := fun r hr =>
      List.mem_filter.2 ⟨mem_allRegs r, decide_eq_true ((mem_regBlock x r).1 hr)⟩
    exact ⟨_, rfl, execResult_guardBlock fun _ =>
      { keeps := ((adv _).loadBlock hrs _).addIndex rfl _
        pc := by simp [PcMoves]
        mem := .inl (by simp)
        fb := .inl (by simp)
        stack := .inl (by simp) }⟩

/-- The result of an instruction, for the next state at hand. -/
theorem result_of_exec {i : Instr} {s t : State} (h : exec i s = .next t) : ExecResult i s t := by
  obtain ⟨u, hu, hr⟩ := exec_result i s
  cases hu.symm.trans h
  exact hr

end Sys2Proof.Machine
end

section
/-! SUPPORT. What a transaction and a step can do, said once. -/

namespace Sys2Proof.Machine

/-- What a `Cycle` can do: nothing, a fetch fault, the no-op, or an instruction; the last two only where a fetch is inside
memory (R100 to R103). -/
theorem result_of_cycle {s t : State} (h : cycle s = .next t) :
    t = s ∨ t = s.raise .fetchBounds s.pc 0 ∨
      (s.pc.toNat + 1 < Config.memSize ∧ (t = s.advance ∨ ∃ i, ExecResult i s t)) := by
  rcases cycle_cases s with ⟨-, e⟩ | ⟨-, -, e⟩ | ⟨w, i, -, hf, -, e⟩ | ⟨w, _, -, hf, -, e⟩ <;> rw [e] at h
  · exact .inl (by cases h; rfl)
  · exact .inr (.inl (by cases h; rfl))
  · exact .inr (.inr ⟨((s.fetch_eq_some w).1 hf).1, .inr ⟨i, result_of_exec h⟩⟩)
  · exact .inr (.inr ⟨((s.fetch_eq_some w).1 hf).1, .inl (by cases h; rfl)⟩)

/-- A transaction that answers a next state was not refused. -/
theorem transact_of_perform {tr : Transaction} {s t : State} (h : perform tr s = .next t) :
    transact tr s = .next t := by
  rcases perform_cases tr s with ⟨-, -, e⟩ | ⟨-, e⟩
  · cases e.symm.trans h
  · exact e ▸ h

/-- A step performs some transaction, the schedule moved on (R217). -/
theorem transact_of_step {s t : State} (h : step s = .next t) :
    ∃ tr rest, transact tr { s with pending := rest } = .next t := by
  rcases step_cases s with ⟨-, e⟩ | ⟨tr, rest, -, e⟩
  · exact ⟨.cycle, s.pending, transact_of_perform (e.symm.trans h)⟩
  · exact ⟨tr, rest, transact_of_perform (e.symm.trans h)⟩

/-- A read of the framebuffer only puts a byte out (R215). -/
theorem emit_of_fbRead {s t : State} {x y : Nat} (h : s.doFbRead x y = .next t) : ∃ e, t = s.emit e := by
  unfold State.doFbRead at h
  split at h <;> cases h
  exact ⟨_, rfl⟩

/-- A tick writes the timers and the output, nothing else (R211). -/
theorem doTick_eq (s : State) :
    s.doTick = { s with dt := countDown s.dt, st := countDown s.st, out := s.beepIfSounding.out } := by
  unfold State.doTick State.beepIfSounding
  split <;> rfl

@[simp] theorem countDown_toNat (t : Byte) : (countDown t).toNat = t.toNat - 1 := by
  unfold countDown
  split
  · next h => simp [h]
  · next h => bv_omega

theorem beepIfSounding_out (s : State) :
    s.beepIfSounding.out = List.replicate (min 1 s.st.toNat) .beep ++ s.out := by
  unfold State.beepIfSounding
  split
  · next h => simp [h]
  · next h =>
    have : min 1 s.st.toNat = 1 := by bv_omega
    rw [this]
    rfl

end Sys2Proof.Machine
end

section
/-! The bounds of memory, framebuffer, stack and PC (O55). -/

namespace Sys2Proof.Safety

open Sys2Proof.Machine

section
variable {s t : State}

theorem causeCode_bounds (c : Cause) : 1 ≤ c.code.toNat ∧ c.code.toNat ≤ 6 := by
  cases c <;> decide

theorem Inv.raise (h : Inv s) (c : Cause) (info opcode : Word) : Inv (s.raise c info opcode) :=
  { h with cause := fun _ => causeCode_bounds c }

/-- PC after an instruction fetched inside memory (R23). -/
theorem Inv.pc_le (h : Inv s) (hpc : s.pc.toNat + 1 < Config.memSize) {i : Instr} (hi : PcMoves s t i) :
    t.pc.toNat ≤ pcMax := by
  have h0 : s.pc.toNat + 4 ≤ pcMax := by simp only [Config.memSize, pcMax] at *; omega
  have h2 : (s.pc + 2).toNat ≤ pcMax := by simp only [pcMax] at *; bv_omega
  have h4 : (s.pc + 4).toNat ≤ pcMax := by simp only [pcMax] at *; bv_omega
  cases i
  case jp nnn | call nnn =>
    rw [show t.pc = addrOperand nnn from hi, addrOperand_toNat]
    exact nnn.isLt.le.trans (by decide)
  case ret => exact (h.stackEntries _ hi).trans (by decide)
  case jpV0 nnn =>
    have hv := (s.readReg regV0).isLt
    have hn := nnn.isLt
    rw [show t.pc = byteOperand (s.readReg regV0) + addrOperand nnn from hi, BitVec.toNat_add, byteOperand_toNat,
      addrOperand_toNat]
    simp only [pcMax]
    omega
  case seImm | sneImm | seReg | sneReg | skp | sknp => exact hi.elim (· ▸ h2) (· ▸ h4)
  case ldVxK => exact hi.elim (· ▸ h.pc) (· ▸ h2)
  all_goals exact (show t.pc = s.pc + 2 from hi) ▸ h2

/-- An instruction fetched inside memory and carried out keeps the invariant. -/
theorem Inv.carriedOut (h : Inv s) (hpc : s.pc.toNat + 1 < Config.memSize) {i : Instr} (hc : CarriedOut i s t) :
    Inv t := by
  have hp : t.params = s.params := hc.keeps.params
  refine ⟨?_, ?_, ?_, h.pc_le hpc hc.pc, ?_, hc.keeps.fault ▸ h.cause⟩
  · rcases hc.mem with e | ⟨bs, hbs, e⟩ <;> rw [e]
    · exact h.memory
    · exact Memory.wf_writeBlock h.memory hbs
  · rw [hp]
    rcases hc.fb with e | e | ⟨col, row, sprite, e⟩ <;> rw [e]
    · exact h.framebuffer
    · exact Framebuffer.wf_filled _ _ _
    · exact drawRows_wf _ _ _ h.framebuffer
  · rw [hp]
    have := h.stackDepth
    rcases hc.stack with e | ⟨hne, e⟩ | ⟨w, e⟩
    · exact e ▸ this
    · rw [e, List.length_cons]; omega
    · rw [e, List.length_cons] at this; omega
  · have hs := h.stackEntries
    rcases hc.stack with e | ⟨-, e⟩ | ⟨w, e⟩
    · exact e ▸ hs
    · rw [e]
      refine List.forall_mem_cons.2 ⟨?_, hs⟩
      simp only [Config.memSize] at *
      bv_omega
    · exact (List.forall_mem_cons.1 (e ▸ hs)).2

theorem Inv.cycle (h : Inv s) (hc : cycle s = .next t) : Inv t := by
  rcases result_of_cycle hc with rfl | rfl | ⟨hpc, rfl | ⟨i, ⟨c, info, opcode, rfl⟩ | hr⟩⟩
  · exact h
  · exact h.raise _ _ _
  · exact { h with pc := h.pc_le (i := .cls) hpc rfl }
  · exact h.raise _ _ _
  · exact h.carriedOut hpc hr

/-- `Reset` gives the invariant from every state (R240). -/
theorem inv_doReset (s : State) : Inv s.doReset where
  memory := Memory.wf_nil
  framebuffer := Framebuffer.wf_filled _ _ _
  stackDepth := Nat.zero_le _
  pc := show (BitVec.ofNat 16 Config.loadBase).toNat ≤ pcMax by decide
  stackEntries := nofun
  cause := nofun

theorem inv_doLoad (s : State) (rom : List Byte) : Inv (s.doLoad rom) :=
  { inv_doReset s with
    memory := Memory.wf_writeBlock Memory.wf_nil (by simp [Config.romMax, Config.memSize, Config.loadBase]; omega) }

theorem Inv.transact (h : Inv s) {tr : Transaction} (ht : transact tr s = .next t) : Inv t := by
  cases tr with
  | reset => cases ht; exact inv_doReset s
  | load rom => cases ht; exact inv_doLoad s rom
  | loadFailed => cases ht; exact { inv_doReset s with }
  | cycle => exact h.cycle ht
  | tick => cases ht; rw [doTick_eq]; exact { h with }
  | press k => cases ht; exact { h with }
  | release k => cases ht; exact { h with }
  | fbRead x y => obtain ⟨e, rfl⟩ := emit_of_fbRead ht; exact { h with }

end

/-- Settles O55: what each transaction does keeps the invariant, and a step is one of them. -/
theorem stepKeepsTheInvariant : Obligations.StepKeepsTheInvariant := by
  intro s t h hs
  obtain ⟨tr, rest, ht⟩ := transact_of_step hs
  have hp : Inv { s with pending := rest } := { h with }
  exact hp.transact ht

end Sys2Proof.Safety
end

section
/-! Blocks of the screen stay uniform (O56). -/

namespace Sys2Proof.Safety

open Sys2Proof.Machine

/-- The blocks of a framebuffer on a screen of this size are uniform (R33). -/
def UniformOn (p : Config.Params) (fb : Framebuffer) : Prop :=
  ∀ x y, x < p.screenW → y < p.screenH → fb.pixel x y = fb.pixel (x / 10 * 10) (y / 10 * 10)

theorem blocksUniform_iff (s : State) : BlocksUniform s ↔ UniformOn s.params s.fb := Iff.rfl

theorem uniformOn_filled (p : Config.Params) (v : Config.Pixel) :
    UniformOn p (Framebuffer.filled p.screenW p.screenH v) := fun x y hx hy =>
  (Framebuffer.pixel_filled _ _ v hx hy).trans (Framebuffer.pixel_filled _ _ v (by omega) (by omega)).symm

/-- A sprite whose corner is a block's covers whole blocks (R182). -/
theorem spriteCovers_block (sprite : List Byte) (col row x y : Nat) :
    SpriteCovers sprite (col * 10) (row * 10) x y ↔
      SpriteCovers sprite (col * 10) (row * 10) (x / 10 * 10) (y / 10 * 10) := by
  constructor
  all_goals
    rintro ⟨r, bit, hr, hbit, hon, h1, h2, h3, h4⟩
    exact ⟨r, bit, hr, hbit, hon, by omega, by omega, by omega, by omega⟩

/-- A sprite toggles whole blocks, so it keeps them uniform (R33, R182). -/
theorem UniformOn.drawSprite {s : State} (h : UniformOn s.params s.fb) (col row : Byte) (sprite : List Byte) :
    UniformOn s.params (s.drawSprite col row sprite).fb := by
  intro x y hx hy
  have hd := drawRows_toggles s.params (col.toNat * 10) (row.toNat * 10) sprite { fb := s.fb, hit := false }
  have hb := spriteCovers_block sprite col.toNat row.toNat x y
  have hx' : x / 10 * 10 < s.params.screenW := by omega
  have hy' : y / 10 * 10 < s.params.screenH := by omega
  by_cases hc : SpriteCovers sprite (col.toNat * 10) (row.toNat * 10) x y
  · exact (hd.flipped x y ⟨hc, hx, hy⟩).trans
      ((congrArg (· ^^^ 255) (h x y hx hy)).trans (hd.flipped _ _ ⟨hb.1 hc, hx', hy'⟩).symm)
  · exact (hd.kept x y fun hs => hc hs.1).trans
      ((h x y hx hy).trans (hd.kept _ _ fun hs => hc (hb.2 hs.1)).symm)

/-- Parameters as they were, and uniform blocks. -/
def SameScreenUniform (s t : State) : Prop := t.params = s.params ∧ BlocksUniform t

section
variable {s t : State}

theorem BlocksUniform.carriedOut (h : BlocksUniform s) {i : Instr} (hc : CarriedOut i s t) :
    SameScreenUniform s t := by
  refine ⟨hc.keeps.params, ?_⟩
  rw [blocksUniform_iff, hc.keeps.params]
  rcases hc.fb with e | e | ⟨col, row, sprite, e⟩ <;> rw [e]
  · exact h
  · exact uniformOn_filled _ _
  · exact UniformOn.drawSprite h col row sprite

theorem BlocksUniform.cycle (h : BlocksUniform s) (hc : cycle s = .next t) : SameScreenUniform s t := by
  rcases result_of_cycle hc with rfl | rfl | ⟨-, rfl | ⟨i, ⟨c, info, opcode, rfl⟩ | hr⟩⟩
  · exact ⟨rfl, h⟩
  · exact ⟨rfl, h⟩
  · exact ⟨rfl, h⟩
  · exact ⟨rfl, h⟩
  · exact h.carriedOut hr

theorem BlocksUniform.transact (h : BlocksUniform s) {tr : Transaction} (ht : transact tr s = .next t) :
    SameScreenUniform s t := by
  cases tr with
  | reset | load _ | loadFailed => cases ht; exact ⟨rfl, uniformOn_filled s.params _⟩
  | cycle => exact h.cycle ht
  | tick => cases ht; rw [doTick_eq]; exact ⟨rfl, h⟩
  | press k | release k => cases ht; exact ⟨rfl, h⟩
  | fbRead x y => obtain ⟨e, rfl⟩ := emit_of_fbRead ht; exact ⟨rfl, h⟩

end

/-- Settles O56. The blocks compared are told by their left upper pixels, which are on the screen with any pixel of
theirs, so the proof does not need the screen to end at a block's edge. -/
theorem blocksStayUniform : Obligations.BlocksStayUniform := by
  intro s t _ h hs
  obtain ⟨tr, rest, ht⟩ := transact_of_step hs
  have hp : BlocksUniform { s with pending := rest } := h
  exact hp.transact ht

end Sys2Proof.Safety
end

section
/-! Who writes VF, the keys and the special registers, and how PC moves (O26, O40, O58, O60). -/

namespace Sys2Proof.Safety

open Sys2Proof.Machine

theorem flagByte_cases (c : Bool) : flagByte c = 0 ∨ flagByte c = 1 := by
  cases c
  · exact .inl rfl
  · exact .inr rfl

theorem readReg_VF_setFlag (s : State) (c : Bool) : (s.setFlag c).readReg 15 = 0 ∨ (s.setFlag c).readReg 15 = 1 := by
  rw [show (s.setFlag c).readReg 15 = flagByte c from s.readReg_setReg_same regVF _]
  exact flagByte_cases c

section
variable {i : Instr} {s t : State}

/-- A register an instruction changes is one its frame lists. -/
theorem mem_touched_of_changed (h : exec i s = .next t) {r : Reg} (hr : t.readReg r ≠ s.readReg r) :
    r ∈ (touched s i).regs := by
  rcases result_of_exec h with ⟨c, info, opcode, rfl⟩ | hc
  · exact absurd rfl hr
  · exact Decidable.by_contra fun hn => hr (hc.keeps.regs r hn)

end

/-- Settles O26. A changed register is in the instruction's frame; the flag is written last, so it is what VF holds. -/
theorem onlyFlagWritersChangeVF : Obligations.OnlyFlagWritersChangeVF := by
  intro i s t h
  refine ⟨fun hr => ?_, ?_⟩
  · have hm := mem_touched_of_changed h hr
    cases i
    case addReg | sub | shr | subn | shl | drw => trivial
    case ldImm x _ | addImm x _ | ldReg x _ | orReg x _ | andReg x _ | xorReg x _ | rnd x _ | ldVxDt x | ldVxK x =>
      exact (List.mem_singleton.1 hm).symm
    case loadRegs x => exact Fin.le_antisymm (Fin.le_last x) (of_decide_eq_true (List.mem_filter.1 hm).2)
    all_goals exact (List.not_mem_nil hm).elim
  · cases i
    case addReg | sub | shr | subn | shl => cases h; exact readReg_VF_setFlag _ _
    case drw x y n =>
      cases h
      intro hpc
      rcases s.guardBlock_cases _ _ _ _ _ with ⟨-, e⟩ | ⟨-, e⟩
      · rw [e]; exact readReg_VF_setFlag _ _
      · rw [e, State.raise_pc] at hpc; bv_omega
    all_goals trivial

/-- Settles O58. What changed is in the instruction's frame. -/
theorem specialRegistersWrittenOnlyByTheirInstructions :
    Obligations.SpecialRegistersWrittenOnlyByTheirInstructions := by
  intro i s t h
  rcases result_of_exec h with ⟨c, info, opcode, rfl⟩ | ⟨hk, -⟩
  · exact ⟨fun e => absurd rfl e, fun e => absurd rfl e, fun e => absurd rfl e, fun e => absurd rfl e, rfl, rfl, rfl, rfl⟩
  · refine ⟨fun e => ?_, fun e => ?_, fun e => ?_, fun e => ?_, hk.out, hk.pending, hk.params, hk.started⟩
    · have hi := fun hf => e (hk.index hf)
      cases i
      case ldI | addI | ldF | storeRegs | loadRegs => trivial
      all_goals exact hi rfl
    · have hi := fun hf => e (hk.dt hf)
      cases i
      case ldDtVx x => exact ⟨x, rfl⟩
      all_goals exact (hi rfl).elim
    · have hi := fun hf => e (hk.st hf)
      cases i
      case ldStVx x => exact ⟨x, rfl⟩
      all_goals exact (hi rfl).elim
    · have hi := fun hf => e (hk.stack hf)
      cases i
      case ret => exact .inl rfl
      case call nnn => exact .inr ⟨nnn, rfl⟩
      all_goals exact (hi rfl).elim

/-- Settles O60. A fault leaves PC; an instruction carried out moves it as `PcMoves` says. -/
theorem programCounterMoves : Obligations.ProgramCounterMoves := by
  intro i s t hv h
  rcases result_of_exec h with ⟨c, info, opcode, rfl⟩ | ⟨hk, hpc, -⟩
  · exact ⟨fun _ => rfl, nofun⟩
  · rw [hk.fault, hv]
    refine ⟨nofun, fun _ => ?_⟩
    cases i
    case jp | call | ret | jpV0 => trivial
    all_goals exact hpc

theorem ExecResult.key_eq {i : Instr} {s t : State} (h : ExecResult i s t) : t.key = s.key := by
  rcases h with ⟨c, info, opcode, rfl⟩ | hc
  · rfl
  · exact hc.keeps.key_eq

theorem cycle_key {s t : State} (h : cycle s = .next t) : t.key = s.key := by
  rcases result_of_cycle h with rfl | rfl | ⟨-, rfl | ⟨i, hr⟩⟩
  · rfl
  · rfl
  · rfl
  · exact ExecResult.key_eq hr

/-- Settles O40. No frame of an instruction holds a key. -/
theorem onlyPressAndReleaseWriteKeys : Obligations.OnlyPressAndReleaseWriteKeys := by
  refine ⟨fun i s t h => ExecResult.key_eq (result_of_exec h), fun tr s t h hne => ?_⟩
  have ht := transact_of_perform h
  cases tr with
  | reset | load _ | loadFailed => cases ht; rfl
  | cycle => exact cycle_key ht
  | tick => cases ht; rw [doTick_eq]
  | press k => exact absurd rfl (hne k).1
  | release k => exact absurd rfl (hne k).2
  | fbRead x y => obtain ⟨e, rfl⟩ := emit_of_fbRead ht; rfl

end Sys2Proof.Safety
end

section
/-! The timers: a run of ticks (O37), and the sound timer unread (O59). -/

namespace Sys2Proof.Machine

/-- A pending tick, once a run has begun, is what the next step performs. -/
theorem step_tick {s : State} {rest : List Transaction} (hs : s.started = true) (hp : s.pending = .tick :: rest) :
    step s = .next { s with
      dt := countDown s.dt, st := countDown s.st, out := s.beepIfSounding.out, pending := rest } := by
  have hb : s.beepIfSounding.out = ({ s with pending := rest } : State).beepIfSounding.out := by
    rw [beepIfSounding_out, beepIfSounding_out]
  rcases step_cases s with ⟨e, -⟩ | ⟨tr, rest', e, h⟩
  · rw [hp] at e; cases e
  · rw [hp] at e
    cases e
    rw [h, perform_of_started (show ({ s with pending := rest } : State).started = true from hs), hb]
    exact congrArg Host.Outcome.next (doTick_eq _)

/-- The beeps of one tick and of `n` more are those of `n + 1`. -/
theorem beeps_succ (n v : Nat) (out : List OutEvent) :
    List.replicate (min n (v - 1)) .beep ++ (List.replicate (min 1 v) .beep ++ out) =
      List.replicate (min (n + 1) v) .beep ++ out := by
  rw [← List.append_assoc, List.replicate_append_replicate, show min n (v - 1) + min 1 v = min (n + 1) v by omega]

/-- Settles O37, by induction on the number of ticks. -/
theorem ticksRunTheTimersOut : Obligations.TicksRunTheTimersOut := by
  intro n
  induction n with
  | zero =>
    intro s rest _ hp
    have hp : s.pending = rest := hp
    exact ⟨s, core_run_zero s, rfl, rfl, by simp, by rw [← hp]⟩
  | succ n ih =>
    intro s rest hs hp
    have hp : s.pending = .tick :: (List.replicate n .tick ++ rest) := hp
    obtain ⟨t, hr, hdt, hst, hout, ht⟩ := ih { s with
      dt := countDown s.dt, st := countDown s.st, out := s.beepIfSounding.out,
      pending := List.replicate n .tick ++ rest } rest hs rfl
    simp only [countDown_toNat] at hdt hst hout
    refine ⟨t, (core_run_succ n (step_tick hs hp)).trans hr, by omega, by omega, ?_, ht⟩
    rw [hout, beepIfSounding_out, beeps_succ]

/-- The state with another value in `ST`. -/
def State.withSt (s : State) (v : Byte) : State := { s with st := v }

theorem State.skipIf_withSt (s : State) (v : Byte) (b : Bool) : (s.withSt v).skipIf b = (s.skipIf b).withSt v := by
  cases b <;> rfl

theorem State.skipOnKey_withSt (s : State) (v : Byte) (x : Reg) (want : Bool) (opcode : Word) :
    (s.withSt v).skipOnKey x want opcode = (s.skipOnKey x want opcode).withSt v := by
  unfold State.skipOnKey
  rw [show (s.withSt v).readReg x = s.readReg x from rfl]
  cases keyOperand (s.readReg x)
  · rfl
  · exact s.skipIf_withSt v _

theorem State.guardBlock_withSt (s : State) (v : Byte) (c : Cause) (base len : Nat) (opcode : Word)
    {done done' : State} (hd : done' = done.withSt v) :
    (s.withSt v).guardBlock c base len opcode done' = (s.guardBlock c base len opcode done).withSt v := by
  subst hd
  unfold State.guardBlock
  split <;> rfl

theorem State.push_withSt (s : State) (v : Byte) (w : Word) :
    (s.withSt v).push w = (s.push w).map (State.withSt · v) := by
  rcases s.push_cases w with ⟨hs, e⟩ | ⟨hs, e⟩ <;> rw [e]
  · exact if_pos hs
  · exact if_neg hs

theorem State.pop_withSt (s : State) (v : Byte) :
    (s.withSt v).pop = s.pop.map (fun p => (p.1, p.2.withSt v)) := by
  rcases s with ⟨_, _, _, _, _, _, _ | ⟨w, rest⟩⟩ <;> rfl

theorem State.loadBlock_withSt (s : State) (v : Byte) (base : Nat) (rs : List Reg) :
    (s.withSt v).loadBlock base rs = (s.loadBlock base rs).withSt v := by
  have fold : ∀ u : State, rs.foldl (fun t r => t.setReg r (s.readByte (base + r.val))) (u.withSt v) =
      (rs.foldl (fun t r => t.setReg r (s.readByte (base + r.val))) u).withSt v := by
    induction rs with
    | nil => exact fun _ => rfl
    | cons q rs ih => exact fun u => ih (u.setReg q _)
  exact fold s

/-- An instruction that does not write `ST` does the same whatever `ST` holds, and leaves it. -/
theorem exec_withSt {i : Instr} (hi : ∀ x, i ≠ .ldStVx x) (s t : State) (v : Byte) (h : exec i s = .next t) :
    exec i (s.withSt v) = .next (t.withSt v) := by
  cases i
  case ldStVx x => exact absurd rfl (hi x)
  case ret =>
    simp only [exec, execRet] at h ⊢
    rw [show (s.withSt v).advance = s.advance.withSt v from rfl, State.pop_withSt]
    cases hp : s.advance.pop <;> rw [hp] at h <;> cases h <;> rfl
  case call nnn =>
    simp only [exec, execCall] at h ⊢
    rw [show (s.withSt v).advance = s.advance.withSt v from rfl, State.push_withSt,
      show (s.advance.withSt v).pc = s.advance.pc from rfl]
    cases hp : s.advance.push s.advance.pc <;> rw [hp] at h <;> cases h <;> rfl
  case ldVxK x =>
    simp only [exec, execLdVxK] at h ⊢
    rw [show (s.withSt v).firstHeld = s.firstHeld from rfl]
    cases hk : s.firstHeld <;> rw [hk] at h <;> cases h <;> rfl
  case seImm | sneImm | seReg | sneReg => cases h; exact congrArg Host.Outcome.next (s.skipIf_withSt v _)
  case skp | sknp => cases h; exact congrArg Host.Outcome.next (s.skipOnKey_withSt v _ _ _)
  case drw | ldB | storeRegs => cases h; exact congrArg Host.Outcome.next (s.guardBlock_withSt v _ _ _ _ rfl)
  case loadRegs x =>
    cases h
    exact congrArg Host.Outcome.next (s.guardBlock_withSt v _ _ _ _
      (congrArg (State.addIndex · (regCount x)) (s.advance.loadBlock_withSt v s.index (regBlock x))))
  all_goals cases h; rfl

/-- Settles O59. -/
theorem noInstructionReadsTheSoundTimer : Obligations.NoInstructionReadsTheSoundTimer := by
  intro i s v hi
  obtain ⟨t, ht⟩ := exec_total i s
  obtain ⟨-, -, hst, -⟩ := Safety.specialRegistersWrittenOnlyByTheirInstructions i s t ht
  refine ⟨t, ht, ?_, exec_withSt hi s t v ht⟩
  by_contra hne
  obtain ⟨x, rfl⟩ := hst hne
  exact hi x rfl

end Sys2Proof.Machine
end

section
/-! The reset state (O46, O57). -/

namespace Sys2Proof.Safety

open Sys2Proof.Machine

/-- The model's reset state is a fixed point of `Reset`. -/
theorem doReset_reset : State.reset.doReset = State.reset := rfl

theorem readReg_reset (r : Reg) : State.reset.readReg r = 0 :=
  Vector.getElem_replicate r.isLt

theorem pixel_reset (x y : Nat) : State.reset.fb.pixel x y = 0 := by
  simp [State.reset, Framebuffer.pixel, Framebuffer.rowBits, pixelByte, Config.pixOff]

/-- Settles O46, value by value. -/
theorem stateResetHoldsTheStatedValues : Obligations.StateResetHoldsTheStatedValues :=
  ⟨fun _ => rfl, readReg_reset, rfl, rfl, rfl, rfl, rfl, pixel_reset, rfl⟩

/-- Settles O57. `Reset` gives the bounds from any state, and the reset state is one it leaves alone. -/
theorem invariantsHoldAtReset : Obligations.InvariantsHoldAtReset :=
  ⟨doReset_reset ▸ inv_doReset State.reset, ⟨by decide, by decide⟩,
    fun x y _ _ => (pixel_reset x y).trans (pixel_reset _ _).symm⟩

end Sys2Proof.Safety
end

section
/-! Decoding an encoded instruction (O1). -/

namespace Sys2Proof

/-! ## The sub-dispatches of families 8 and F (R84) -/

theorem decode_wordXYN_family8 (x y : Reg) (n : BitVec 4) :
    decode (wordXYN 0x8 x y n) = decodeFamily8 (wordXYN 0x8 x y n) x y := by
  simp [decode]

theorem decode_wordXNN_familyF (x : Reg) (nn : Byte) :
    decode (wordXNN 0xF x nn) = decodeFamilyF (wordXNN 0xF x nn) x := by
  simp [decode]

/-- The word of an instruction holds its family and operands where the decoder looks for them. The cases are grouped by
what the decoder checks: the whole word, the family alone, a low nibble or byte in its own arm, and the sub-dispatches of
families 8 and F (R84, R85, R86). -/
theorem decode_encode (i : Instr) : decode (encode i) = .ok i := by
  cases i
  case cls | ret => rfl
  case jp | call | ldI | jpV0 | seImm | sneImm | ldImm | addImm | rnd | drw => simp [encode, decode]
  case seReg | sneReg | skp | sknp => simp [encode, decode]
  case ldReg | orReg | andReg | xorReg | addReg | sub | shr | subn | shl =>
    exact (decode_wordXYN_family8 _ _ _).trans (by simp [decodeFamily8])
  case ldVxDt | ldVxK | ldDtVx | ldStVx | addI | ldF | ldB | storeRegs | loadRegs =>
    exact (decode_wordXNN_familyF _ _).trans (by simp [decodeFamilyF])

/-- The bytes of an instruction, whatever follows them, are decoded by their word (R53, R80). -/
theorem decodeBytes_encodeBytes_append (i : Instr) (rest : List Byte) :
    decodeBytes (encodeBytes i ++ rest) = .ok (i, rest) := by
  simp [encodeBytes, decodeBytes, decode_encode]

/-- Settles O1. -/
theorem decodeOfEncodeIsTheInstruction : Obligations.DecodeOfEncodeIsTheInstruction := fun i rest =>
  ⟨decode_encode i, decodeBytes_encodeBytes_append i rest⟩

end Sys2Proof
end

section
/-! Memory: the fetch, and what writes it (O7, O9, O33, O34). -/

namespace Sys2Proof.Safety

open Sys2Proof.Machine

/-! ## The fetch -/

/-- A fetch inside memory gives the big-endian word at PC (R53, R56). -/
theorem fetch_inside {s : State} (h : s.pc.toNat + 1 < Config.memSize) :
    s.fetch = some (s.readByte s.pc.toNat ++ s.readByte (s.pc.toNat + 1)) :=
  (s.fetch_eq_some _).2 ⟨h, rfl⟩

/-- A fetch outside memory is the whole of its cycle: a fault with PC as its information and opcode 0 (R204). -/
theorem cycle_of_fetch_none {s : State} (hv : s.fault.valid = false) (hf : s.fetch = none) :
    cycle s = .next (s.raise .fetchBounds s.pc 0) := by
  simp [cycle, hv, hf]

/-- A cycle is the meaning of the instruction fetched (R100, R102). -/
theorem cycle_of_decode {s : State} {w : Word} {i : Instr} (hv : s.fault.valid = false) (hf : s.fetch = some w)
    (hd : decode w = .ok i) : cycle s = exec i s := by
  simp [cycle, runWord, hv, hf, hd]

/-- Settles O9: PC below 4094 is where both bytes are inside memory. -/
theorem fetchOutsideMemoryFaults : Obligations.FetchOutsideMemoryFaults := by
  refine fun s => ⟨fun hpc hv => ⟨_, cycle_of_fetch_none hv ?_, rfl⟩, fun hpc => fetch_inside ?_⟩
  · exact s.fetch_eq_none.2 (Nat.succ_le_succ hpc)
  · exact Nat.succ_lt_succ hpc

/-- With nothing pending a step is a `Cycle` (R100, log 2). -/
theorem step_of_pending_nil {s : State} (hs : s.started = true) (hp : s.pending = []) : step s = cycle s := by
  have e : step s = perform .cycle s := by simp [step, nextTransaction, hp]
  exact e.trans (perform_of_started hs _)

/-- A pending `Cycle` is taken off the schedule and performed (R217, log 2). -/
theorem step_of_pending_cycle {s : State} {rest : List Transaction} (hs : s.started = true)
    (hp : s.pending = .cycle :: rest) : step s = cycle { s with pending := rest } := by
  have e : step s = perform .cycle { s with pending := rest } := by simp [step, nextTransaction, hp]
  exact e.trans (perform_of_started (s := { s with pending := rest }) hs _)

/-- Settles O7. Taking a transaction off the schedule moves neither PC nor memory, so all three fetch one word. -/
theorem stepRunsTheDecodedInstruction : Obligations.StepRunsTheDecodedInstruction := by
  rintro s w i rest hs hv hpc rfl hd
  have hf := fetch_inside hpc
  refine ⟨cycle_of_decode hv hf hd, fun hp => ?_, fun hp => ?_⟩
  · exact (step_of_pending_nil hs hp).trans (cycle_of_decode hv hf hd)
  · exact (step_of_pending_cycle hs hp).trans (cycle_of_decode (s := { s with pending := rest }) hv hf hd)

/-! ## Bytes stored by FX55 -/

/-- Entry `r` of the bytes FX55 stores is register `r` (R54, R159). -/
theorem getD_map_readReg_regBlock (s : State) {x r : Reg} (h : r ≤ x) :
    ((regBlock x).map s.readReg).getD r.val 0 = s.readReg r := by
  have hlt : r.val < (regBlock x).length := by rw [regBlock_length]; exact Nat.lt_succ_of_le h
  rw [List.getD_eq_getElem _ _ (by simpa using hlt), List.getElem_map]
  exact congrArg s.readReg (Fin.ext (getElem_regBlock x r.val hlt))

/-- FX55 whose block is in memory leaves register `r` at `I + r` (R159). -/
theorem readByte_of_storeRegs {x r : Reg} {s t : State} (hin : s.index + x.val < Config.memSize)
    (h : exec (.storeRegs x) s = .next t) (hr : r ≤ x) : t.readByte (s.index + r.val) = s.readReg r := by
  have hblock : s.index ≤ s.index + r.val ∧
      s.index + r.val < s.index + ((regBlock x).map s.readReg).length := by
    have : r.val ≤ x.val := hr
    simp only [List.length_map, regBlock_length]
    omega
  have hmem : t.mem = Memory.writeBlock s.mem s.index ((regBlock x).map s.readReg) := by
    cases h
    rw [s.guardBlock_ok _ _ _ (.inr hin)]
    rfl
  rw [State.readByte, hmem, Memory.read_writeBlock, if_pos hblock, Nat.add_sub_cancel_left]
  exact getD_map_readReg_regBlock s hr

/-- Settles O33: the two bytes of the fetch are two registers of the block stored. -/
theorem storedBytesAreFetchedNext : Obligations.StoredBytesAreFetchedNext := by
  intro x r q s t hin hq hqx h hpc
  have hrq : r ≤ q := Fin.le_def.2 (by omega)
  have hnext : t.pc.toNat + 1 = s.index + q.val := by rw [hpc, hq]; rfl
  have hmem : s.index + q.val < Config.memSize := (Nat.add_le_add_left hqx _).trans_lt hin
  rw [fetch_inside (hnext ▸ hmem), hnext, hpc]
  exact congrArg some (congrArg₂ _ (readByte_of_storeRegs hin h (hrq.trans hqx)) (readByte_of_storeRegs hin h hqx))

/-! ## Who writes memory -/

/-- A byte an instruction changes is in its frame's block. -/
theorem mem_block_of_changed {i : Instr} {s t : State} {a : Nat} (h : exec i s = .next t)
    (ha : t.readByte a ≠ s.readByte a) :
    (touched s i).memBase ≤ a ∧ a < (touched s i).memBase + (touched s i).memLen := by
  rcases result_of_exec h with ⟨c, info, opcode, rfl⟩ | hc
  · exact absurd rfl ha
  · exact Decidable.by_contra fun hn => ha (hc.keeps.memory a hn)

/-- Settles O34. The frame of every instruction but the two stores has an empty block of memory. -/
theorem onlyStoresAndTheHostWriteMemory : Obligations.OnlyStoresAndTheHostWriteMemory := by
  refine ⟨fun i s t a h ha => ?_, fun tr s t a h ha => ?_⟩
  · obtain ⟨hlo, hhi⟩ := mem_block_of_changed h ha
    cases i
    case ldB | storeRegs => exact ⟨hlo, Nat.le_of_lt_succ hhi⟩
    all_goals exact absurd hhi (Nat.not_lt.2 hlo)
  · have ht := transact_of_perform h
    cases tr with
    | reset => exact .inr (.inl rfl)
    | load rom => exact .inr (.inr (.inr ⟨rom, rfl⟩))
    | loadFailed => exact .inr (.inr (.inl rfl))
    | cycle => exact .inl rfl
    | tick => cases ht; rw [doTick_eq] at ha; exact absurd rfl ha
    | press k | release k => cases ht; exact absurd rfl ha
    | fbRead x y => obtain ⟨e, rfl⟩ := emit_of_fbRead ht; exact absurd rfl ha

end Sys2Proof.Safety
end

section
/-! The decoder against the opcode map: what it answers, and which words meet a row (O2, O3, O4, O5, O8). -/

namespace Sys2Proof

open Sys2Proof.Machine

/-! ## A word put together from its fields, format by format (R81, R83) -/

theorem nibble_three_append_two (w : Word) : nibble w 3 ++ nibble w 2 = w.extractLsb' 8 8 :=
  BitVec.extractLsb'_append_extractLsb'_eq_extractLsb' rfl

/-- The fields are compared as numbers, as the decoder's matches do. -/
theorem wordNNN_eq_of_fields {w : Word} {f : BitVec 4} {nnn : BitVec 12} (hf : (nibble w 3).toNat = f.toNat)
    (hn : (fieldNNN w).toNat = nnn.toNat) : wordNNN f nnn = w := by
  rw [← BitVec.eq_of_toNat_eq hf, ← BitVec.eq_of_toNat_eq hn]
  exact (BitVec.extractLsb'_append_extractLsb'_eq_extractLsb' rfl).trans BitVec.extractLsb'_eq_self

theorem wordXNN_eq_of_fields {w : Word} {f : BitVec 4} {nn : Byte} (hf : (nibble w 3).toNat = f.toNat)
    (hn : (fieldNN w).toNat = nn.toNat) : wordXNN f (regOf (nibble w 2)) nn = w := by
  rw [← BitVec.eq_of_toNat_eq hf, ← BitVec.eq_of_toNat_eq hn, wordXNN, regBits_regOf, nibble_three_append_two]
  exact (BitVec.extractLsb'_append_extractLsb'_eq_extractLsb' rfl).trans BitVec.extractLsb'_eq_self

theorem wordXYN_eq_of_fields {w : Word} {f n : BitVec 4} (hf : (nibble w 3).toNat = f.toNat)
    (hn : (nibble w 0).toNat = n.toNat) : wordXYN f (regOf (nibble w 2)) (regOf (nibble w 1)) n = w := by
  have hlow : w.extractLsb' 8 8 ++ nibble w 1 = w.extractLsb' 4 12 :=
    BitVec.extractLsb'_append_extractLsb'_eq_extractLsb' rfl
  rw [← BitVec.eq_of_toNat_eq hf, ← BitVec.eq_of_toNat_eq hn, wordXYN, regBits_regOf, regBits_regOf,
    nibble_three_append_two, hlow]
  exact (BitVec.extractLsb'_append_extractLsb'_eq_extractLsb' rfl).trans BitVec.extractLsb'_eq_self

/-! ## The fields of a word written out, and of a word that meets a row -/

@[simp] theorem nibble_ofNat (n k : Nat) :
    nibble (BitVec.ofNat 16 n) k = BitVec.ofNat 4 ((n % 2 ^ 16) >>> (4 * k)) := rfl

@[simp] theorem fieldNN_ofNat (n : Nat) : fieldNN (BitVec.ofNat 16 n) = BitVec.ofNat 8 (n % 2 ^ 16) := rfl

/-- A nibble the mask keeps whole is the row's. -/
theorem nibble_of_and_eq {w m b : Word} {k : Nat} (h : w &&& m = b) (hm : nibble m k = 0xF) :
    nibble w k = nibble b k := by
  have hand : nibble (w &&& m) k = nibble w k &&& nibble m k := BitVec.extractLsb'_and
  rw [← h, hand, hm]
  exact BitVec.and_allOnes.symm

/-- A low byte the mask keeps whole is the row's. -/
theorem fieldNN_of_and_eq {w m b : Word} (h : w &&& m = b) (hm : fieldNN m = 0xFF) : fieldNN w = fieldNN b := by
  have hand : fieldNN (w &&& m) = fieldNN w &&& fieldNN m := BitVec.extractLsb'_and
  rw [← h, hand, hm]
  exact BitVec.and_allOnes.symm

/-! ## What the decoder answers -/

/-- The words that are no instruction, as R89 lists them. -/
def UnknownWord (w : Word) : Prop :=
  (nibble w 3 = 0x0 ∧ w ≠ 0x00E0 ∧ w ≠ 0x00EE) ∨
    ((nibble w 3 = 0x5 ∨ nibble w 3 = 0x9) ∧ nibble w 0 ≠ 0) ∨
    (nibble w 3 = 0x8 ∧ nibble w 0 ∈ ([0x8, 0x9, 0xA, 0xB, 0xC, 0xD, 0xF] : List (BitVec 4))) ∨
    (nibble w 3 = 0xE ∧ fieldNN w ∉ ([0x9E, 0xA1] : List Byte)) ∨
    (nibble w 3 = 0xF ∧
      fieldNN w ∉ ([0x07, 0x0A, 0x15, 0x18, 0x1E, 0x29, 0x33, 0x55, 0x65] : List Byte))

theorem not_unknownWord_encode (i : Instr) : ¬ UnknownWord (encode i) := by
  cases i <;> simp [encode, UnknownWord]

/-- What the decoder may answer for a word: an instruction of that word, or the word's rejection by name (R84, R88). -/
inductive DecodeAnswer (w : Word) : Except DecodeReject Instr → Prop where
  | instr {i : Instr} (h : encode i = w) : DecodeAnswer w (.ok i)
  | unknown (h : UnknownWord w) : DecodeAnswer w (.error (.unknownWord w))

theorem decodeAnswer_family8 {w : Word} (hf : (nibble w 3).toNat = 0x8) :
    DecodeAnswer w (decodeFamily8 w (regOf (nibble w 2)) (regOf (nibble w 1))) := by
  unfold decodeFamily8
  split
  case h_10 =>
    refine .unknown (.inr (.inr (.inl ⟨BitVec.eq_of_toNat_eq hf, ?_⟩)))
    simp only [List.mem_cons, List.not_mem_nil, or_false, ← BitVec.toNat_inj, BitVec.ofNat_eq_ofNat,
      BitVec.toNat_ofNat, imp_false] at *
    omega
  all_goals next hn => exact .instr (wordXYN_eq_of_fields hf hn)

theorem decodeAnswer_familyF {w : Word} (hf : (nibble w 3).toNat = 0xF) :
    DecodeAnswer w (decodeFamilyF w (regOf (nibble w 2))) := by
  unfold decodeFamilyF
  split
  case h_10 =>
    refine .unknown (.inr (.inr (.inr (.inr ⟨BitVec.eq_of_toNat_eq hf, ?_⟩))))
    simp_all [← BitVec.toNat_inj]
  all_goals next hn => exact .instr (wordXNN_eq_of_fields hf hn)

/-- Every word gets such an answer, family by family: case `h_k` of the decoder's match is family `k - 1`, and past
`h_16` there is none. -/
theorem decodeAnswer_decode (w : Word) : DecodeAnswer w (decode w) := by
  unfold decode
  dsimp only
  split
  case h_1 hf =>
    split
    · next hn => exact .instr (wordNNN_eq_of_fields (f := 0) (nnn := 0x0E0) hf hn)
    · next hn => exact .instr (wordNNN_eq_of_fields (f := 0) (nnn := 0x0EE) hf hn)
    · next hcls hret =>
      refine .unknown (.inl ⟨BitVec.eq_of_toNat_eq hf, ?_, ?_⟩)
      · rintro rfl; exact hcls rfl
      · rintro rfl; exact hret rfl
  case h_2 | h_3 | h_11 | h_12 => next hf => exact .instr (wordNNN_eq_of_fields hf rfl)
  case h_4 | h_5 | h_7 | h_8 | h_13 => next hf => exact .instr (wordXNN_eq_of_fields hf rfl)
  case h_6 | h_10 =>
    next hf =>
    split
    · next hn => exact .instr (wordXYN_eq_of_fields hf (congrArg BitVec.toNat hn))
    · next hn => exact .unknown (.inr (.inl ⟨by simp [← BitVec.toNat_inj, hf], hn⟩))
  case h_9 hf => exact decodeAnswer_family8 hf
  case h_14 hf => exact .instr (wordXYN_eq_of_fields hf rfl)
  case h_15 hf =>
    split
    · next hn => exact .instr (wordXNN_eq_of_fields hf hn)
    · next hn => exact .instr (wordXNN_eq_of_fields hf hn)
    · refine .unknown (.inr (.inr (.inr (.inl ⟨BitVec.eq_of_toNat_eq hf, ?_⟩))))
      simp_all [← BitVec.toNat_inj]
  case h_16 hf => exact decodeAnswer_familyF hf
  case h_17 =>
    simp only [imp_false] at *
    omega

theorem encode_of_decode {w : Word} {i : Instr} (h : decode w = .ok i) : encode i = w := by
  have ha := decodeAnswer_decode w
  rw [h] at ha
  cases ha with
  | instr hi => exact hi

theorem unknownWord_of_decode_error {w : Word} {e : DecodeReject} (h : decode w = .error e) :
    e = .unknownWord w ∧ UnknownWord w := by
  have ha := decodeAnswer_decode w
  rw [h] at ha
  cases ha with
  | unknown hu => exact ⟨rfl, hu⟩

/-- A word of R89's list is no instruction's word, so the decoder has only the rejection left for it. -/
theorem exists_decode_error_iff (w : Word) : (∃ e, decode w = .error e) ↔ UnknownWord w := by
  refine ⟨fun ⟨e, he⟩ => (unknownWord_of_decode_error he).2, fun hu => ?_⟩
  cases hd : decode w with
  | ok i => exact absurd (encode_of_decode hd ▸ hu) (not_unknownWord_encode i)
  | error e => exact ⟨e, rfl⟩

/-- Settles O2. -/
theorem encodeOfDecodeIsTheWord : Obligations.EncodeOfDecodeIsTheWord := fun _ _ => encode_of_decode

/-- Settles O4: R89's list is what the decoder's default arms leave. -/
theorem unknownWordsByFamily : Obligations.UnknownWordsByFamily := exists_decode_error_iff

/-- Settles O5: the decoder run on each word. -/
theorem wordsWrittenFromThePatterns : Obligations.WordsWrittenFromThePatterns := by
  unfold Obligations.WordsWrittenFromThePatterns
  decide

/-! ## The rows of the opcode map (R85, R86) -/

open Laws.FixedBits in
/-- The word of an instruction meets its row, by the mask of its format. -/
theorem encode_and_mask (i : Instr) : encode i &&& (rowOf i).mask = (rowOf i).bits := by
  cases i
  case cls | ret => rfl
  case jp | call | ldI | jpV0 => exact wordNNN_mask _ _
  case seImm | sneImm | ldImm | addImm | rnd => exact wordXNN_mask _ _ _
  case seReg | sneReg | ldReg | orReg | andReg | xorReg | addReg | sub | shr | subn | shl =>
    exact wordXY_mask _ _ _ _
  case drw => exact wordXYN_mask _ _ _ _
  case skp | sknp | ldVxDt | ldVxK | ldDtVx | ldStVx | addI | ldF | ldB | storeRegs | loadRegs =>
    exact wordX_mask _ _ _

theorem rowOf_mem_opTable (i : Instr) : rowOf i ∈ opTable := by
  cases i <;> simp only [opTable, rowOf, List.mem_cons, true_or, or_true]

theorem exists_rowOf_of_mem_opTable : ∀ r ∈ opTable, ∃ i, rowOf i = r := by
  simp only [opTable, List.forall_mem_cons, exists_apply_eq_apply, true_and]
  exact List.forall_mem_nil _

/-- A word that meets the row of `i` decodes to an instruction of that row: each mask keeps whole the nibbles or the
byte the decoder compares. -/
theorem decode_of_meets_row {w : Word} {i : Instr} (h : w &&& (rowOf i).mask = (rowOf i).bits) :
    ∃ j, decode w = .ok j ∧ rowOf j = rowOf i := by
  cases i
  case cls | ret =>
    obtain rfl := BitVec.and_allOnes.symm.trans h
    exact ⟨_, rfl, rfl⟩
  case jp | call | ldI | jpV0 | seImm | sneImm | ldImm | addImm | rnd | drw =>
    have hf := nibble_of_and_eq (k := 3) h (by simp [rowOf])
    simp [decode, hf, rowOf]
  case seReg | sneReg | ldReg | orReg | andReg | xorReg | addReg | sub | shr | subn | shl =>
    have hf := nibble_of_and_eq (k := 3) h (by simp [rowOf])
    have hn := nibble_of_and_eq (k := 0) h (by simp [rowOf])
    simp [decode, decodeFamily8, hf, hn, rowOf]
  case skp | sknp | ldVxDt | ldVxK | ldDtVx | ldStVx | addI | ldF | ldB | storeRegs | loadRegs =>
    have hf := nibble_of_and_eq (k := 3) h (by simp [rowOf])
    have hn := fieldNN_of_and_eq h (by simp [rowOf])
    simp [decode, decodeFamilyF, hf, hn, rowOf]

theorem meets_row_of_decode {w : Word} {i : Instr} (h : decode w = .ok i) : w &&& (rowOf i).mask = (rowOf i).bits :=
  encode_of_decode h ▸ encode_and_mask i

theorem decode_of_meets_no_row {w : Word} (h : ∀ r ∈ opTable, w &&& r.mask ≠ r.bits) :
    decode w = .error (.unknownWord w) := by
  cases hd : decode w with
  | ok i => exact absurd (meets_row_of_decode hd) (h _ (rowOf_mem_opTable i))
  | error e => rw [(unknownWord_of_decode_error hd).1]

/-- A word no row has runs as the no-op (R88, R103). -/
theorem runWord_of_meets_no_row {w : Word} (h : ∀ r ∈ opTable, w &&& r.mask ≠ r.bits) (s : State) :
    runWord w s = .next { s with pc := s.pc + 2 } := by
  rw [runWord, decode_of_meets_no_row h]
  rfl

/-- Settles O3. Two rows met by one word are both the row of what the word decodes to, so they are one. -/
theorem decodeFollowsTheOpcodeMap : Obligations.DecodeFollowsTheOpcodeMap := by
  intro w
  have hrow : ∀ r ∈ opTable, w &&& r.mask = r.bits → ∃ i, decode w = .ok i ∧ rowOf i = r := by
    intro r hr h
    obtain ⟨i, rfl⟩ := exists_rowOf_of_mem_opTable r hr
    exact decode_of_meets_row h
  refine ⟨fun i h => ⟨rowOf_mem_opTable i, meets_row_of_decode h⟩, hrow, fun r hr q hq hwr hwq => ?_,
    fun h => ⟨decode_of_meets_no_row h, runWord_of_meets_no_row h⟩⟩
  obtain ⟨i, hi, rfl⟩ := hrow r hr hwr
  obtain ⟨j, hj, rfl⟩ := hrow q hq hwq
  cases hi.symm.trans hj
  rfl

/-- Settles O8: the fetched word runs as the no-op. -/
theorem unknownWordMovesPcOnly : Obligations.UnknownWordMovesPcOnly := by
  intro s w hv hf h
  simpa [cycle, hv, hf] using runWord_of_meets_no_row h s

end Sys2Proof
end

section
/-! When a run has begun, and what stops it once it has (O49). -/

namespace Sys2Proof.Safety

open Sys2Proof.Machine

section
variable {tr : Transaction} {s t : State}

/-! ## Whether a run has begun (R244) -/

theorem ExecResult.started_eq {i : Instr} (h : ExecResult i s t) : t.started = s.started := by
  rcases h with ⟨c, info, opcode, rfl⟩ | hc
  · rfl
  · exact hc.keeps.started

theorem cycle_started (h : cycle s = .next t) : t.started = s.started := by
  rcases result_of_cycle h with rfl | rfl | ⟨-, rfl | ⟨i, hr⟩⟩
  · rfl
  · rfl
  · rfl
  · exact ExecResult.started_eq hr

/-- `Reset` and `Load` begin a run, and no transaction ends one. -/
theorem transact_started (h : transact tr s = .next t) : t.started = (s.started || tr.beginsRun) := by
  cases tr with
  | reset | load _ | loadFailed => cases h; exact (Bool.or_true _).symm
  | cycle => exact (cycle_started h).trans (Bool.or_false _).symm
  | tick => cases h; rw [doTick_eq]; exact (Bool.or_false _).symm
  | press k | release k => cases h; exact (Bool.or_false _).symm
  | fbRead x y => obtain ⟨e, rfl⟩ := emit_of_fbRead h; exact (Bool.or_false _).symm

/-- A transaction that is not refused leaves a run begun. -/
theorem started_of_perform (h : perform tr s = .next t) : t.started = true := by
  rcases perform_cases tr s with ⟨-, -, e⟩ | ⟨hb, e⟩
  · cases e.symm.trans h
  · rw [transact_started (e.symm.trans h), Bool.or_eq_true]
    exact hb

/-! ## What can be refused once a run has begun (R215) -/

/-- A read of the framebuffer gives a byte inside the screen and is refused outside (R215, log 19). -/
theorem doFbRead_cases (s : State) (x y : Nat) :
    ((x < s.params.screenW ∧ y < s.params.screenH) ∧ s.doFbRead x y = .next (s.emit (.fbByte (s.fb.pixel x y)))) ∨
      (¬ (x < s.params.screenW ∧ y < s.params.screenH) ∧ s.doFbRead x y = .refused (.fbReadOffScreen x y)) := by
  by_cases h : x < s.params.screenW ∧ y < s.params.screenH
  · exact .inl ⟨h, by simp [State.doFbRead, Transaction.wellFormed, h]⟩
  · exact .inr ⟨h, by simpa [State.doFbRead, Transaction.wellFormed] using h⟩

/-- A transaction answers a next state, unless it is a read of the framebuffer outside the screen. -/
theorem transact_cases (tr : Transaction) (s : State) :
    (∃ t, transact tr s = .next t) ∨
      ∃ x y, tr = .fbRead x y ∧ ¬ (x < s.params.screenW ∧ y < s.params.screenH) ∧
        transact tr s = .refused (.fbReadOffScreen x y) := by
  cases tr with
  | reset | load _ | loadFailed | tick | press _ | release _ => exact .inl ⟨_, rfl⟩
  | cycle => exact .inl (cycle_total s)
  | fbRead x y =>
    rcases doFbRead_cases s x y with ⟨-, e⟩ | ⟨hout, e⟩
    · exact .inl ⟨_, e⟩
    · exact .inr ⟨x, y, rfl, hout, e⟩

end

/-- Settles O49. Once a run has begun a step is its transaction carried out, and of these only a read of the framebuffer
can be refused. -/
theorem runOnceBegunGoesOn : Obligations.RunOnceBegunGoesOn := by
  refine ⟨fun s t h => ?_, fun s hs => ?_⟩
  · rcases step_cases s with ⟨-, e⟩ | ⟨tr, rest, -, e⟩ <;> exact started_of_perform (e.symm.trans h)
  · rcases step_cases s with ⟨hp, -⟩ | ⟨tr, rest, hp, e⟩
    · rw [step_of_pending_nil hs hp]
      exact .inl (cycle_total s)
    · rw [e, perform_of_started (s := { s with pending := rest }) hs]
      rcases transact_cases tr { s with pending := rest } with hn | ⟨x, y, rfl, hout, hr⟩
      · exact .inl hn
      · exact .inr ⟨x, y, rest, hp, hout, hr⟩

end Sys2Proof.Safety
end

section
/-! Control flow (O13 to O17). -/

namespace Sys2Proof.Machine

/-! ## What a call and a return do -/

/-- A call on a stack with room (R111). -/
theorem exec_call_of_room {s : State} (nnn : BitVec 12) (h : s.stack.length ≠ s.params.stackDepth) :
    exec (.call nnn) s = .next { s with stack := (s.pc + 2) :: s.stack, pc := addrOperand nnn } := by
  rcases s.advance.push_cases s.advance.pc with ⟨hfull, -⟩ | ⟨-, e⟩
  · exact absurd hfull h
  · simp only [exec, execCall, e]
    rfl

/-- A call on a full stack (R111, R206). -/
theorem exec_call_of_full {s : State} (nnn : BitVec 12) (h : s.stack.length = s.params.stackDepth) :
    exec (.call nnn) s = .next (s.raise .stackOverflow (s.pc + 2) (encode (.call nnn))) := by
  rcases s.advance.push_cases s.advance.pc with ⟨-, e⟩ | ⟨hroom, -⟩
  · simp only [exec, execCall, e]
    rfl
  · exact absurd h hroom

/-- A return with an entry on the stack (R112). -/
theorem exec_ret_of_cons {s : State} {w : Word} {rest : List Word} (h : s.stack = w :: rest) :
    exec .ret s = .next { s with stack := rest, pc := w } := by
  rcases s.advance.pop_cases with ⟨hnil, -⟩ | ⟨w', rest', hcons, e⟩
  · cases h.symm.trans hnil
  · cases h.symm.trans hcons
    simp only [exec, execRet, e]
    rfl

/-- A return on an empty stack (R112, R206). -/
theorem exec_ret_of_nil {s : State} (h : s.stack = []) :
    exec .ret s = .next (s.raise .stackUnderflow 0 0x00EE) := by
  rcases s.advance.pop_cases with ⟨-, e⟩ | ⟨w, rest, hcons, -⟩
  · simp only [exec, execRet, e]
    rfl
  · cases h.symm.trans hcons

/-- The target of BNNN does not wrap: the sum is at most `0xFF + 0xFFF` (R113). -/
theorem toNat_byteOperand_add_addrOperand (b : Byte) (nnn : BitVec 12) :
    (byteOperand b + addrOperand nnn).toNat = b.toNat + nnn.toNat := by
  rw [BitVec.toNat_add, byteOperand_toNat, addrOperand_toNat]
  omega

end Sys2Proof.Machine

namespace Sys2Proof.Safety

open Sys2Proof.Machine

/-! ## The statements -/

/-- Settles O13. PC is in no frame, so a jump keeps everything. -/
theorem jumpLoadsPc : Obligations.JumpLoadsPc := fun nnn s =>
  ⟨encode_and_mask (.jp nnn), _, rfl, addrOperand_toNat nnn, (Keeps.refl _ s).withPc _⟩

/-- Settles O14, by the two cases of a push. -/
theorem callPushesTheAdvancedPc : Obligations.CallPushesTheAdvancedPc := by
  refine fun nnn s => ⟨encode_and_mask (.call nnn), fun hroom => ?_, fun hfull => ?_⟩
  · exact ⟨_, exec_call_of_room nnn hroom, rfl, addrOperand_toNat nnn,
      ((Keeps.refl _ s).withStack rfl ((s.pc + 2) :: s.stack)).withPc _⟩
  · exact ⟨_, exec_call_of_full nnn hfull, rfl⟩

/-- Settles O15, by the two cases of a pop. -/
theorem returnPopsPc : Obligations.ReturnPopsPc := by
  refine fun s => ⟨rfl, fun w rest hs => ?_, fun hs => ?_⟩
  · exact ⟨_, exec_ret_of_cons hs, rfl, rfl, ((Keeps.refl _ s).withStack rfl rest).withPc w⟩
  · exact ⟨_, exec_ret_of_nil hs, rfl⟩

/-- Settles O16: the target is a sum that does not wrap, bounded by its two operands' widths. -/
theorem jumpWithOffsetAddsV0 : Obligations.JumpWithOffsetAddsV0 := by
  intro nnn s
  have hsum := toNat_byteOperand_add_addrOperand (s.readReg regV0) nnn
  refine ⟨encode_and_mask (.jpV0 nnn), _, rfl, hsum, hsum.trans_le ?_, (Keeps.refl _ s).withPc _⟩
  omega

/-- Settles O17: the return pops the entry the call pushed. -/
theorem callThenReturnComesBack : Obligations.CallThenReturnComesBack := fun nnn _ hroom =>
  ⟨_, exec_call_of_room nnn hroom, exec_ret_of_cons rfl⟩

end Sys2Proof.Safety
end

section
/-! The conditional skips (O18 to O20). -/

namespace Sys2Proof

theorem decode_of_unknownWord {w : Word} (h : UnknownWord w) : decode w = .error (.unknownWord w) := by
  obtain ⟨e, he⟩ := (exists_decode_error_iff w).2 h
  rw [he, (unknownWord_of_decode_error he).1]

end Sys2Proof

namespace Sys2Proof.Machine

section
variable {s : State} {b : Bool} {p : Prop} [Decidable p]

/-! ## Where a skip leaves PC (R120 to R125) -/

theorem skipIf_pc_of_iff (h : b = true ↔ p) : (s.skipIf b).pc = if p then s.pc + 4 else s.pc + 2 := by
  rw [s.skipIf_eq]
  exact if_congr h rfl rfl

theorem skipIf_pc_of_iff_not (h : b = true ↔ ¬ p) : (s.skipIf b).pc = if p then s.pc + 2 else s.pc + 4 :=
  (skipIf_pc_of_iff h).trans (ite_not p _ _)

end

/-! ## What a skip on a key does -/

/-- `V[X]` at most 15 is the number of a key (R124, R125). -/
theorem State.skipOnKey_of_key {s : State} {x : Reg} {k : Key} (h : (s.readReg x).toNat = k.val) (want : Bool)
    (opcode : Word) : s.skipOnKey x want opcode = s.skipIf (s.keyHeld k == want) := by
  have hk : keyOperand (s.readReg x) = some k := by
    rw [keyOperand_eq_some (h.trans_lt k.isLt)]
    exact congrArg some (Fin.ext h)
  rw [State.skipOnKey, hk]

/-- `V[X]` above 15 names no key (R207). -/
theorem State.skipOnKey_of_above {s : State} {x : Reg} (h : 15 < (s.readReg x).toNat) (want : Bool) (opcode : Word) :
    s.skipOnKey x want opcode = s.raise .keyIndex (BitVec.ofNat 16 (s.readReg x).toNat) opcode := by
  rw [State.skipOnKey, keyOperand_eq_none h, BitVec.ofNat_toNat]
  rfl

end Sys2Proof.Machine

namespace Sys2Proof.Safety

open Sys2Proof.Machine

/-! ## The statements -/

/-- Settles O18. -/
theorem skipOnImmediate : Obligations.SkipOnImmediate := fun x nn s =>
  ⟨encode_and_mask (.seImm x nn), encode_and_mask (.sneImm x nn),
    ⟨_, rfl, skipIf_pc_of_iff beq_iff_eq, (Keeps.refl _ s).skipIf _⟩,
    ⟨_, rfl, skipIf_pc_of_iff_not bne_iff_ne, (Keeps.refl _ s).skipIf _⟩⟩

/-- Settles O19. A word with another low nibble is in R89's list of unknown words. -/
theorem skipOnRegisters : Obligations.SkipOnRegisters := fun x y s =>
  ⟨encode_and_mask (.seReg x y), encode_and_mask (.sneReg x y),
    fun _ hfamily hlow => decode_of_unknownWord (.inr (.inl ⟨hfamily, hlow⟩)),
    ⟨_, rfl, skipIf_pc_of_iff beq_iff_eq, (Keeps.refl _ s).skipIf _⟩,
    ⟨_, rfl, skipIf_pc_of_iff_not bne_iff_ne, (Keeps.refl _ s).skipIf _⟩⟩

/-- Settles O20, by whether `V[X]` is the number of a key. -/
theorem skipOnKey : Obligations.SkipOnKey := by
  refine fun x s => ⟨encode_and_mask (.skp x), encode_and_mask (.sknp x), fun k hk => ?_, fun habove => ?_⟩
  · have hnotHeld : (s.keyHeld k == false) = true ↔ ¬ s.keyHeld k = true := by simp
    exact ⟨⟨_, congrArg Host.Outcome.next (State.skipOnKey_of_key hk true _), skipIf_pc_of_iff beq_iff_eq,
        (Keeps.refl _ s).skipIf _⟩,
      ⟨_, congrArg Host.Outcome.next (State.skipOnKey_of_key hk false _), skipIf_pc_of_iff_not hnotHeld,
        (Keeps.refl _ s).skipIf _⟩⟩
  · exact ⟨⟨_, congrArg Host.Outcome.next (State.skipOnKey_of_above habove true _), rfl⟩,
      ⟨_, congrArg Host.Outcome.next (State.skipOnKey_of_above habove false _), rfl⟩⟩

end Sys2Proof.Safety
end

section
/-! Register load and arithmetic (O21 to O25). -/

namespace Sys2Proof.Machine

section
variable {c : Bool} {p : Prop} [Decidable p]

/-! ## The number a flag is (R21, R24) -/

theorem flagByte_toNat (c : Bool) : (flagByte c).toNat = c.toNat := by
  cases c <;> rfl

theorem flagByte_toNat_of_iff (h : c = true ↔ p) : (flagByte c).toNat = if p then 1 else 0 := by
  rw [flagByte, if_congr h rfl rfl]
  exact apply_ite BitVec.toNat p 1 0

theorem flagByte_toNat_of_iff_not (h : c = true ↔ ¬ p) : (flagByte c).toNat = if p then 0 else 1 :=
  (flagByte_toNat_of_iff h).trans (ite_not p _ _)

end

theorem carryOut_iff (a b : Byte) : carryOut a b = true ↔ a.toNat + b.toNat > 255 := decide_eq_true_iff

theorem notBorrow_iff (a b : Byte) : notBorrow a b = true ↔ ¬ a.toNat < b.toNat := by
  rw [notBorrow, Bool.not_eq_true', decide_eq_false_iff_not]

theorem flagByte_shiftedOutRight_toNat (a : Byte) : (flagByte (shiftedOutRight a)).toNat = a.toNat % 2 := by
  rw [flagByte_toNat, shiftedOutRight, BitVec.getLsbD, Nat.toNat_testBit, pow_zero, Nat.div_one]

/-- The highest bit of a byte is its quotient by 128. -/
theorem flagByte_shiftedOutLeft_toNat (a : Byte) : (flagByte (shiftedOutLeft a)).toNat = a.toNat / 128 := by
  have ha : a.toNat < 256 := a.isLt
  rw [flagByte_toNat, shiftedOutLeft, BitVec.getLsbD, Nat.toNat_testBit]
  omega

/-! ## The registers after a result and a flag (R24, R141) -/

theorem State.readReg_setResultFlag_of_ne (s : State) {x : Reg} (h : x ≠ 15) (r : Byte) (c : Bool) :
    (s.setResultFlag x r c).readReg x = r :=
  (s.readReg_setResultFlag x x r c).trans ((if_neg h).trans (if_pos rfl))

theorem State.readReg_setResultFlag_VF (s : State) (x : Reg) (r : Byte) (c : Bool) :
    (s.setResultFlag x r c).readReg 15 = flagByte c :=
  (s.setReg x r).readReg_setReg_same regVF (flagByte c)

/-! ## The number a result is -/

theorem byteSub_toNat (a b : Byte) : (a - b).toNat = (a.toNat + 256 - b.toNat) % 256 := by
  have hb : b.toNat < 256 := b.isLt
  rw [BitVec.toNat_sub]
  omega

theorem byteShiftRight_toNat (a : Byte) : (a >>> 1).toNat = a.toNat / 2 := by
  rw [BitVec.toNat_ushiftRight, Nat.shiftRight_eq_div_pow, pow_one]

theorem byteShiftLeft_toNat (a : Byte) : (a <<< 1).toNat = a.toNat * 2 % 256 := by
  rw [BitVec.toNat_shiftLeft, Nat.shiftLeft_eq, pow_one]

end Sys2Proof.Machine

namespace Sys2Proof.Safety

open Sys2Proof.Machine

/-! ## What a register instruction leaves -/

theorem keeps_advance_setReg (s : State) (x : Reg) (b : Byte) : Keeps { regs := [x] } s (s.advance.setReg x b) :=
  (Keeps.refl _ s).advance.setReg (List.mem_singleton_self x) b

/-- The flag is written last: the result stands unless `x` is 15, the flag stands always (R24, R141). -/
theorem advance_setResultFlag_effect (s : State) (x : Reg) {r : Byte} {c : Bool} {n m : Nat} (hr : r.toNat = n)
    (hc : (flagByte c).toNat = m) :
    (x ≠ 15 → ((s.advance.setResultFlag x r c).readReg x).toNat = n) ∧
      ((s.advance.setResultFlag x r c).readReg 15).toNat = m ∧ (s.advance.setResultFlag x r c).pc = s.pc + 2 ∧
      Keeps { regs := [x, 15] } s (s.advance.setResultFlag x r c) := by
  refine ⟨fun hx => ?_, ?_, rfl, (Keeps.refl _ s).advance.setResultFlag (by simp) (by simp [regVF]) r c⟩
  · rw [State.readReg_setResultFlag_of_ne _ hx, hr]
  · rw [State.readReg_setResultFlag_VF, hc]

/-! ## The statements -/

/-- Settles O21. -/
theorem loadAndAddImmediate : Obligations.LoadAndAddImmediate := by
  refine fun x nn s => ⟨encode_and_mask (.ldImm x nn), encode_and_mask (.addImm x nn), ?_, ?_⟩
  · exact ⟨_, rfl, State.readReg_setReg_same _ x nn, rfl, keeps_advance_setReg s x nn⟩
  · refine ⟨_, rfl, ?_, rfl, keeps_advance_setReg s x _⟩
    rw [State.readReg_setReg_same, BitVec.toNat_add]

/-- Settles O22. -/
theorem copyAndBitwise : Obligations.CopyAndBitwise := by
  refine fun x y s => ⟨encode_and_mask (.ldReg x y), encode_and_mask (.orReg x y), encode_and_mask (.andReg x y),
    encode_and_mask (.xorReg x y), ?_, ?_, ?_, ?_⟩
  · exact ⟨_, rfl, State.readReg_setReg_same _ x _, rfl, keeps_advance_setReg s x _⟩
  · refine ⟨_, rfl, fun j => ?_, rfl, keeps_advance_setReg s x _⟩
    rw [State.readReg_setReg_same, BitVec.getLsbD_or]
  · refine ⟨_, rfl, fun j => ?_, rfl, keeps_advance_setReg s x _⟩
    rw [State.readReg_setReg_same, BitVec.getLsbD_and]
  · refine ⟨_, rfl, fun j => ?_, rfl, keeps_advance_setReg s x _⟩
    rw [State.readReg_setReg_same, BitVec.getLsbD_xor]

/-- Settles O23. -/
theorem addSetsCarry : Obligations.AddSetsCarry := fun x y s =>
  ⟨encode_and_mask (.addReg x y), _, rfl,
    advance_setResultFlag_effect s x (BitVec.toNat_add _ _) (flagByte_toNat_of_iff (carryOut_iff _ _))⟩

/-- Settles O24. The two differ only in which register is the minuend. -/
theorem subtractSetsNotBorrow : Obligations.SubtractSetsNotBorrow := fun x y s =>
  ⟨encode_and_mask (.sub x y), encode_and_mask (.subn x y),
    ⟨_, rfl, advance_setResultFlag_effect s x (byteSub_toNat _ _) (flagByte_toNat_of_iff_not (notBorrow_iff _ _))⟩,
    ⟨_, rfl, advance_setResultFlag_effect s x (byteSub_toNat _ _) (flagByte_toNat_of_iff_not (notBorrow_iff _ _))⟩⟩

/-- Settles O25. The `y` field has no effect: the meaning does not read it. -/
theorem shiftsByOne : Obligations.ShiftsByOne := by
  intro x y s
  obtain ⟨hright, hrightFlag, hrightPc, hrightKeeps⟩ := advance_setResultFlag_effect s x
    (byteShiftRight_toNat (s.readReg x)) (flagByte_shiftedOutRight_toNat (s.readReg x))
  obtain ⟨hleft, hleftFlag, hleftPc, hleftKeeps⟩ := advance_setResultFlag_effect s x
    (byteShiftLeft_toNat (s.readReg x)) (flagByte_shiftedOutLeft_toNat (s.readReg x))
  exact ⟨encode_and_mask (.shr x y), encode_and_mask (.shl x y),
    ⟨_, rfl, hright, hrightFlag, hrightPc, hrightKeeps, fun _ => rfl⟩,
    ⟨_, rfl, hleft, hleftFlag, hleftPc, hleftKeeps, fun _ => rfl⟩⟩

end Sys2Proof.Safety
end

section
/-! The random byte: what CXNN makes of it (O27), and that nothing else draws or reads it (O28). -/

namespace Sys2Proof.Machine

/-! ## The counter of draws is kept (R150) -/

section
variable {i : Instr} {s t : State}

/-- CXNN is the one instruction whose frame holds the counter. -/
theorem touched_draws (hi : ∀ x nn, i ≠ .rnd x nn) (s : State) : (touched s i).draws = false := by
  cases i
  case rnd x nn => exact absurd rfl (hi x nn)
  all_goals rfl

theorem exec_draws (hi : ∀ x nn, i ≠ .rnd x nn) (h : exec i s = .next t) : t.draws = s.draws := by
  rcases result_of_exec h with ⟨c, info, opcode, rfl⟩ | hc
  · rfl
  · exact hc.keeps.draws (touched_draws hi s)

end

/-! ## The counter is not read

Each shared operation commutes with a move of the counter; that of the plain register and field writes is so by
definition. -/

/-- The state at another place in the stream of random bytes (log 5). -/
def State.withDraws (s : State) (d : Nat) : State := { s with draws := d }

theorem State.skipIf_withDraws (s : State) (d : Nat) (b : Bool) :
    (s.withDraws d).skipIf b = (s.skipIf b).withDraws d :=
  (apply_ite (State.withDraws · d) (b = true) s.advance.advance s.advance).symm

theorem State.guardBlock_withDraws (s : State) (d : Nat) (c : Cause) (base len : Nat) (opcode : Word)
    {done done' : State} (hd : done' = done.withDraws d) :
    (s.withDraws d).guardBlock c base len opcode done' = (s.guardBlock c base len opcode done).withDraws d :=
  hd ▸ (apply_ite (State.withDraws · d) (blockOk base len = true) done
    (s.raise c (BitVec.ofNat 16 (lowestBad base)) opcode)).symm

theorem State.skipOnKey_withDraws (s : State) (d : Nat) (x : Reg) (want : Bool) (opcode : Word) :
    (s.withDraws d).skipOnKey x want opcode = (s.skipOnKey x want opcode).withDraws d := by
  by_cases h : 15 < (s.readReg x).toNat
  · rw [State.skipOnKey_of_above h]
    exact State.skipOnKey_of_above (s := s.withDraws d) h want opcode
  · have hk : (s.readReg x).toNat = (⟨(s.readReg x).toNat, by omega⟩ : Key).val := rfl
    rw [State.skipOnKey_of_key hk]
    exact (State.skipOnKey_of_key (s := s.withDraws d) hk want opcode).trans (s.skipIf_withDraws d _)

theorem State.loadBlock_withDraws (s : State) (d : Nat) (base : Nat) (rs : List Reg) :
    (s.withDraws d).loadBlock base rs = (s.loadBlock base rs).withDraws d :=
  List.foldl_hom (State.withDraws · d) fun _ _ => rfl

/-- An instruction but CXNN carries the move of the counter from its state to its result. -/
theorem exec_withDraws {i : Instr} (hi : ∀ x nn, i ≠ .rnd x nn) (s : State) (d : Nat) :
    ∃ t, exec i s = .next t ∧ exec i (s.withDraws d) = .next (t.withDraws d) := by
  cases i
  case rnd x nn => exact absurd rfl (hi x nn)
  case ret =>
    cases h : s.stack with
    | nil => exact ⟨_, exec_ret_of_nil h, exec_ret_of_nil (s := s.withDraws d) h⟩
    | cons w rest => exact ⟨_, exec_ret_of_cons h, exec_ret_of_cons (s := s.withDraws d) h⟩
  case call nnn =>
    by_cases h : s.stack.length = s.params.stackDepth
    · exact ⟨_, exec_call_of_full nnn h, exec_call_of_full (s := s.withDraws d) nnn h⟩
    · exact ⟨_, exec_call_of_room nnn h, exec_call_of_room (s := s.withDraws d) nnn h⟩
  case ldVxK x =>
    have hkeys : (s.withDraws d).firstHeld = s.firstHeld := rfl
    simp only [exec, execLdVxK, hkeys]
    cases s.firstHeld <;> exact ⟨_, rfl, rfl⟩
  case seImm | sneImm | seReg | sneReg => exact ⟨_, rfl, congrArg Host.Outcome.next (s.skipIf_withDraws d _)⟩
  case skp | sknp => exact ⟨_, rfl, congrArg Host.Outcome.next (s.skipOnKey_withDraws d _ _ _)⟩
  case drw | ldB | storeRegs =>
    exact ⟨_, rfl, congrArg Host.Outcome.next (s.guardBlock_withDraws d _ _ _ _ rfl)⟩
  case loadRegs x =>
    have hload := s.advance.loadBlock_withDraws d s.index (regBlock x)
    exact ⟨_, rfl, congrArg Host.Outcome.next
      (s.guardBlock_withDraws d _ _ _ _ (congrArg (State.addIndex · (regCount x)) hload))⟩
  all_goals exact ⟨_, rfl, rfl⟩

end Sys2Proof.Machine

namespace Sys2Proof.Safety

open Sys2Proof.Machine

/-! ## A masked byte -/

/-- A masked byte has no bit outside its mask. -/
theorem and_mask_and_not_mask (b nn : Byte) : b &&& nn &&& ~~~nn = 0 := by
  rw [BitVec.and_assoc, BitVec.and_not_self]
  exact BitVec.and_zero

theorem and_mask_toNat_le (b nn : Byte) : (b &&& nn).toNat ≤ nn.toNat := by
  rw [BitVec.toNat_and]
  exact Nat.and_le_right

/-! ## The statements -/

/-- Settles O27. -/
theorem randomIsMasked : Obligations.RandomIsMasked := by
  intro x nn s
  have hreg : (s.advance.setReg x (s.rand8 &&& nn)).readReg x = Config.rand8 s.draws &&& nn :=
    s.advance.readReg_setReg_same x _
  exact ⟨encode_and_mask (.rnd x nn), _, rfl, hreg,
    (congrArg (· &&& ~~~nn) hreg).trans (and_mask_and_not_mask _ nn),
    (congrArg BitVec.toNat hreg).trans_le (and_mask_toNat_le _ nn), rfl, rfl,
    ((Keeps.refl _ s).advance.setReg (List.mem_singleton_self x) _).withDraws rfl _, fun _ _ _ hi h => exec_draws hi h⟩

/-- Settles O28. -/
theorem onlyRandomSamplesTheRandPort : Obligations.OnlyRandomSamplesTheRandPort := by
  intro i s d hi
  obtain ⟨t, ht, htd⟩ := exec_withDraws hi s d
  exact ⟨t, ht, exec_draws hi ht, htd⟩

end Sys2Proof.Safety
end

section
/-! Memory and index instructions (O29 to O32). -/

namespace Sys2Proof.Machine

/-! ## Blocks at `I` -/

theorem Memory.read_writeBlock_add (m : Memory) (a : Nat) {bs : List Byte} {k : Nat} (hk : k < bs.length) :
    (m.writeBlock a bs).read (a + k) = bs.getD k 0 := by
  rw [Memory.read_writeBlock, if_pos ⟨Nat.le_add_right a k, Nat.add_lt_add_left hk a⟩, Nat.add_sub_cancel_left]

/-- Past a block inside memory `I` does not wrap (R159, R160). -/
theorem State.addIndex_regCount_toNat {s : State} {x : Reg} (hin : s.i.toNat + x.val < Config.memSize) :
    (s.addIndex (regCount x)).i.toNat = s.i.toNat + x.val + 1 :=
  Nat.mod_eq_of_lt ((Nat.succ_lt_succ hin).trans (by decide))

/-- The registers of a block load take their bytes (R160). -/
theorem State.readReg_loadBlock_regBlock (s : State) (base : Nat) {x r : Reg} (hr : r ≤ x) :
    (s.loadBlock base (regBlock x)).readReg r = s.readByte (base + r.val) :=
  (s.loadBlock_spec base (regBlock x) r).1.trans (if_pos ((mem_regBlock x r).2 hr))

/-- Each digit fits its byte (R158). -/
theorem map_toNat_bcdDigits (b : Byte) :
    (bcdDigits b).map BitVec.toNat = [b.toNat / 100, b.toNat / 10 % 10, b.toNat % 10] := by
  have hb : b.toNat < 256 := b.isLt
  simp (disch := omega) only [bcdDigits, List.map_cons, List.map_nil, BitVec.toNat_ofNat, Nat.mod_eq_of_lt]

/-! ## A block access inside memory -/

section
variable {x : Reg} {s t : State}

theorem exec_ldB_of_inside (hin : s.index + 2 < Config.memSize) :
    exec (.ldB x) s =
      .next { s.advance with mem := Memory.writeBlock s.mem s.index (bcdDigits (s.readReg x)) } :=
  congrArg Host.Outcome.next (s.guardBlock_ok _ _ _ (.inr hin))

theorem exec_storeRegs_of_inside (hin : s.index + x.val < Config.memSize) :
    exec (.storeRegs x) s = .next (State.addIndex
      { s.advance with mem := Memory.writeBlock s.mem s.index ((regBlock x).map s.readReg) } (regCount x)) :=
  congrArg Host.Outcome.next (s.guardBlock_ok _ _ _ (.inr hin))

theorem exec_loadRegs_of_inside (hin : s.index + x.val < Config.memSize) :
    exec (.loadRegs x) s = .next ((s.advance.loadBlock s.index (regBlock x)).addIndex (regCount x)) :=
  congrArg Host.Outcome.next (s.guardBlock_ok _ _ _ (.inr hin))

/-- FX33 inside memory leaves digit `k` of `V[X]` at `I + k` (R158). -/
theorem readByte_toNat_of_ldB (hin : s.index + 2 < Config.memSize) (h : exec (.ldB x) s = .next t) {k : Nat}
    (hk : k < 3) :
    (t.readByte (s.index + k)).toNat =
      [(s.readReg x).toNat / 100, (s.readReg x).toNat / 10 % 10, (s.readReg x).toNat % 10].getD k 0 := by
  cases (exec_ldB_of_inside hin).symm.trans h
  rw [← map_toNat_bcdDigits, ← BitVec.toNat_zero (w := 8), List.getD_map]
  exact congrArg BitVec.toNat (Memory.read_writeBlock_add s.mem s.index hk)

end

end Sys2Proof.Machine

namespace Sys2Proof.Safety

open Sys2Proof.Machine

/-- A block at `I` whose last byte is outside memory faults at the lowest bad address (R161, R200). -/
theorem guardBlock_faultTaken {s : State} {n : Nat} (hout : Config.memSize ≤ s.i.toNat + n) (c : Cause) (opcode : Word)
    (done : State) :
    FaultTaken c.code (BitVec.ofNat 16 (max s.i.toNat Config.memSize)) opcode s
      (s.guardBlock c s.index (n + 1) opcode done) :=
  s.guardBlock_bad c opcode done (not_or.2 ⟨n.succ_ne_zero, Nat.not_le.2 (Nat.lt_succ_of_le hout)⟩)

/-- A fault leaves PC, so an instruction that moved PC on was carried out, in its frame. -/
theorem keeps_of_pc_advanced {i : Instr} {s t : State} (h : exec i s = .next t) (hpc : t.pc = s.pc + 2) :
    Keeps (touched s i) s t := by
  rcases result_of_exec h with ⟨c, info, opcode, rfl⟩ | hdone
  · rw [State.raise_pc] at hpc
    bv_omega
  · exact hdone.keeps

/-! ## The statements -/

/-- Settles O30. -/
theorem bcdWritesThreeDigits : Obligations.BcdWritesThreeDigits := by
  refine fun x s => ⟨encode_and_mask (.ldB x), fun hin => ?_, fun hout => ?_⟩
  · have hexec := exec_ldB_of_inside (x := x) hin
    have digit (k : Nat) := readByte_toNat_of_ldB hin hexec (k := k)
    exact ⟨_, hexec, digit 0 (by decide), digit 1 (by decide), digit 2 (by decide), rfl,
      keeps_of_pc_advanced hexec rfl⟩
  · exact ⟨_, rfl, guardBlock_faultTaken hout .writeBounds _ _⟩

/-- Settles O31. -/
theorem storeRegistersWritesTheBlock : Obligations.StoreRegistersWritesTheBlock := by
  refine fun x s => ⟨encode_and_mask (.storeRegs x), fun hin => ?_, fun hout => ?_⟩
  · have hexec := exec_storeRegs_of_inside (x := x) hin
    exact ⟨_, hexec, fun r => readByte_of_storeRegs hin hexec, State.addIndex_regCount_toNat (s := s) hin, rfl,
      keeps_of_pc_advanced hexec rfl⟩
  · exact ⟨_, rfl, guardBlock_faultTaken hout .writeBounds _ _⟩

/-- Settles O32. A block load leaves `I` and PC, and reads bytes it does not change. -/
theorem loadRegistersReadsTheBlock : Obligations.LoadRegistersReadsTheBlock := by
  refine fun x s => ⟨encode_and_mask (.loadRegs x), fun hin => ?_, fun hout => ?_⟩
  · have hexec := exec_loadRegs_of_inside (x := x) hin
    have hi : (s.advance.loadBlock s.index (regBlock x)).i = s.i := s.advance.loadBlock_i _ _
    have hpc : (s.advance.loadBlock s.index (regBlock x)).pc = s.pc + 2 := s.advance.loadBlock_pc _ _
    have hindex := State.addIndex_regCount_toNat (hi.symm ▸ hin)
    rw [hi] at hindex
    exact ⟨_, hexec, fun r => s.advance.readReg_loadBlock_regBlock s.index, hindex, hpc,
      keeps_of_pc_advanced hexec hpc⟩
  · exact ⟨_, rfl, guardBlock_faultTaken hout .readBounds _ _⟩

/-- Settles O29. Only FX1E can wrap: an address has 12 bits and five times a byte is at most 1275. -/
theorem indexInstructions : Obligations.IndexInstructions := by
  refine ⟨fun nnn s => ?_, fun x s => ?_, fun x s => ?_⟩
  · exact ⟨encode_and_mask (.ldI nnn), _, rfl, addrOperand_toNat nnn, rfl, keeps_of_pc_advanced (i := .ldI nnn) rfl rfl⟩
  · exact ⟨encode_and_mask (.addI x), _, rfl, BitVec.toNat_ofNat _ _, rfl, keeps_of_pc_advanced (i := .addI x) rfl rfl⟩
  · have hbyte := (s.readReg x).isLt
    exact ⟨encode_and_mask (.ldF x), _, rfl, Nat.mod_eq_of_lt (by omega), rfl,
      keeps_of_pc_advanced (i := .ldF x) rfl rfl⟩

end Sys2Proof.Safety
end

section
/-! Timer instructions (O35). -/

namespace Sys2Proof.Safety

open Sys2Proof.Machine

/-- Settles O35. Each moves PC on, so it raised no fault and kept all but its destination. -/
theorem timerInstructions : Obligations.TimerInstructions := fun x s =>
  ⟨encode_and_mask (.ldVxDt x), encode_and_mask (.ldDtVx x), encode_and_mask (.ldStVx x),
    ⟨_, rfl, s.advance.readReg_setReg_same x s.dt, rfl, keeps_of_pc_advanced (i := .ldVxDt x) rfl rfl⟩,
    ⟨_, rfl, rfl, rfl, keeps_of_pc_advanced (i := .ldDtVx x) rfl rfl⟩,
    ⟨_, rfl, rfl, rfl, keeps_of_pc_advanced (i := .ldStVx x) rfl rfl⟩⟩

end Sys2Proof.Safety
end

section
/-! The input instruction (O39). -/

namespace Sys2Proof.Machine

section
variable {s : State}

theorem exec_ldVxK_of_firstHeld_none (x : Reg) (h : s.firstHeld = none) : exec (.ldVxK x) s = .next s := by
  simp only [exec, execLdVxK, h, s.rewind_advance]

theorem exec_ldVxK_of_firstHeld_some (x : Reg) {k : Key} (h : s.firstHeld = some k) :
    exec (.ldVxK x) s = .next (s.advance.setReg x (BitVec.ofNat 8 k.val)) := by
  simp only [exec, execLdVxK, h]

end

end Sys2Proof.Machine

namespace Sys2Proof.Safety

open Sys2Proof.Machine

/-- Settles O39. `firstHeld` is the lowest held key, and a key number fits a byte. -/
theorem waitForKey : Obligations.WaitForKey := by
  refine fun x s => ⟨encode_and_mask (.ldVxK x), fun hnone => ?_, fun k hheld hlowest => ?_⟩
  · exact exec_ldVxK_of_firstHeld_none x (s.firstHeld_eq_none.2 hnone)
  · have hexec := exec_ldVxK_of_firstHeld_some x ((s.firstHeld_eq_some k).2 ⟨hheld, hlowest⟩)
    have hkey : (BitVec.ofNat 8 k.val).toNat = k.val := Nat.mod_eq_of_lt (k.isLt.trans (by decide))
    exact ⟨_, hexec, (congrArg BitVec.toNat (s.advance.readReg_setReg_same x _)).trans hkey, rfl,
      keeps_of_pc_advanced hexec rfl⟩

end Sys2Proof.Safety
end

section
/-! Display (O41 to O43). -/

namespace Sys2Proof.Machine

open Sys2Proof.Safety

/-- A sprite drawn at `I` turns the drawing's targets over (R181). -/
theorem drawSprite_toggles (s : State) (x y : Reg) (n : BitVec 4) :
    Toggles (DrawTarget s x y n) { fb := s.fb, hit := false }
      (s.drawSprite (s.readReg x) (s.readReg y) (Memory.readBlock s.mem s.index n.toNat)) :=
  drawRows_toggles s.params _ _ _ _

/-- DXYN whose rows are all in memory, or that has none (R181). -/
theorem exec_drw_of_inside {s : State} {n : BitVec 4} (x y : Reg)
    (hin : n = 0 ∨ s.i.toNat + n.toNat - 1 < Config.memSize) :
    exec (.drw x y n) s = .next (s.advance.commitDrawing
      (s.drawSprite (s.readReg x) (s.readReg y) (Memory.readBlock s.mem s.index n.toNat))) := by
  refine congrArg Host.Outcome.next (s.guardBlock_ok _ _ _ (hin.imp (congrArg BitVec.toNat) fun h => ?_))
  simp only [State.index, Config.memSize] at h ⊢
  omega

theorem State.readReg_VF_commitDrawing (s : State) (d : Drawing) : (s.commitDrawing d).readReg 15 = flagByte d.hit :=
  s.readReg_commitDrawing d regVF

end Sys2Proof.Machine

namespace Sys2Proof.Safety

open Sys2Proof.Machine

/-- What a drawing reads is outside its frame, so it leaves the targets where they were; `VF` is in the frame. -/
theorem drawTarget_of_keeps {s t : State} {x y : Reg} (hk : Keeps { regs := [15], fb := true } s t) (hx : x ≠ 15)
    (hy : y ≠ 15) (n : BitVec 4) : DrawTarget t x y n = DrawTarget s x y n := by
  have hcol : t.readReg x = s.readReg x := hk.regs x (by simpa using hx)
  have hrow : t.readReg y = s.readReg y := hk.regs y (by simpa using hy)
  have hindex : t.index = s.index := congrArg BitVec.toNat (hk.index rfl)
  have hmem : Memory.readBlock t.mem s.index n.toNat = Memory.readBlock s.mem s.index n.toNat :=
    List.map_congr_left fun k _ => hk.memory _ (by simp)
  unfold DrawTarget
  rw [hcol, hrow, hindex, hmem, hk.params]

/-! ## The statements -/

/-- Settles O41. -/
theorem clearFillsTheScreen : Obligations.ClearFillsTheScreen := fun _ =>
  ⟨rfl, rfl, _, rfl, fun _ _ => Framebuffer.pixel_filled _ _ _, rfl, keeps_of_pc_advanced (i := .cls) rfl rfl⟩

/-- Settles O42. The drawing starts with no collision, so `VF` tells whether a target was on. -/
theorem drawTogglesItsTargets : Obligations.DrawTogglesItsTargets := by
  refine fun x y n s => ⟨encode_and_mask (.drw x y n), fun hin => ?_, fun hn hout => ?_⟩
  · have hexec := exec_drw_of_inside x y hin
    have hdraw := drawSprite_toggles s x y n
    refine ⟨_, hexec, hdraw.flipped, hdraw.kept, fun ⟨px, py, hon⟩ => ?_, fun hoff => ?_, rfl,
      keeps_of_pc_advanced hexec rfl⟩
    · rw [State.readReg_VF_commitDrawing, hdraw.hit.2 (.inr ⟨px, py, hon⟩)]
      rfl
    · have hmiss := mt hdraw.hit.1 (not_or.2 ⟨nofun, fun ⟨px, py, hs, hp⟩ => hoff px py hs hp⟩)
      rw [State.readReg_VF_commitDrawing, Bool.eq_false_iff.2 hmiss]
      rfl
  · have hn0 : n.toNat ≠ 0 := fun h => hn (BitVec.eq_of_toNat_eq h)
    refine ⟨_, rfl, s.guardBlock_bad _ _ _ ?_⟩
    simp only [State.index, Config.memSize]
    omega

/-- Settles O43. Both drawings have the same targets: the second turns each back, and finds on what the
first turned on. -/
theorem drawTwiceRestoresTheScreen : Obligations.DrawTwiceRestoresTheScreen := by
  intro x y n s t u hx hy hin ht hu
  obtain ⟨-, hfirst, -⟩ := drawTogglesItsTargets x y n s
  obtain ⟨-, hsecond, -⟩ := drawTogglesItsTargets x y n t
  obtain ⟨_, et, htFlip, htKeep, -, htOff, -, hk⟩ := hfirst hin
  cases et.symm.trans ht
  obtain ⟨_, eu, huFlip, huKeep, huOn, -⟩ := hsecond (hk.index rfl ▸ hin)
  cases eu.symm.trans hu
  rw [drawTarget_of_keeps hk hx hy] at huFlip huKeep huOn
  refine ⟨fun px py => ?_, fun ⟨px, py, hs⟩ hoff => ⟨htOff hoff, huOn ⟨px, py, hs, ?_⟩⟩⟩
  · by_cases hs : DrawTarget s x y n px py
    · rw [huFlip px py hs, htFlip px py hs, BitVec.xor_assoc, BitVec.xor_self, BitVec.xor_zero]
    · rw [huKeep px py hs, htKeep px py hs]
  · rw [htFlip px py hs, (s.fb.pixel_cases px py).resolve_right (hoff px py hs)]
    rfl

end Sys2Proof.Safety
end

section
/-! The fault latch (O10 to O12). -/

namespace Sys2Proof.Machine

/-- The faults of instructions: which one raises which cause in `s`, and with what information (R200). -/
inductive Raises (s : State) : Instr → Cause → Word → Prop where
  | ret (h : s.stack = []) : Raises s .ret .stackUnderflow 0
  | call {nnn : BitVec 12} (h : s.stack.length = s.params.stackDepth) :
    Raises s (.call nnn) .stackOverflow (s.pc + 2)
  | skp {x : Reg} (h : 15 < (s.readReg x).toNat) :
    Raises s (.skp x) .keyIndex (BitVec.ofNat 16 (s.readReg x).toNat)
  | sknp {x : Reg} (h : 15 < (s.readReg x).toNat) :
    Raises s (.sknp x) .keyIndex (BitVec.ofNat 16 (s.readReg x).toNat)
  | ldB {x : Reg} (h : blockOk s.index 3 = false) :
    Raises s (.ldB x) .writeBounds (BitVec.ofNat 16 (lowestBad s.index))
  | storeRegs {x : Reg} (h : blockOk s.index (regCount x) = false) :
    Raises s (.storeRegs x) .writeBounds (BitVec.ofNat 16 (lowestBad s.index))
  | loadRegs {x : Reg} (h : blockOk s.index (regCount x) = false) :
    Raises s (.loadRegs x) .readBounds (BitVec.ofNat 16 (lowestBad s.index))
  | drw {x y : Reg} {n : BitVec 4} (h : blockOk s.index n.toNat = false) :
    Raises s (.drw x y n) .readBounds (BitVec.ofNat 16 (lowestBad s.index))

/-- The latch after an instruction: as before, or set by one of its faults, with its own word and nothing else done
(R201). -/
def LatchResult (i : Instr) (s t : State) : Prop :=
  t.fault = s.fault ∨ ∃ c info, Raises s i c info ∧ t = s.raise c info (encode i)

theorem latchResult_guardBlock {i : Instr} {s done : State} {c : Cause} {len : Nat}
    (hr : blockOk s.index len = false → Raises s i c (BitVec.ofNat 16 (lowestBad s.index)))
    (hd : done.fault = s.fault) : LatchResult i s (s.guardBlock c s.index len (encode i) done) := by
  rcases s.guardBlock_cases c s.index len (encode i) done with ⟨-, e⟩ | ⟨hbad, e⟩ <;> rw [e]
  · exact .inl hd
  · exact .inr ⟨c, _, hr hbad, rfl⟩

theorem skipIf_fault (s : State) (b : Bool) : (s.skipIf b).fault = s.fault := by
  rw [s.skipIf_eq]

theorem latchResult_skipOnKey {i : Instr} {s : State} {x : Reg} (want : Bool)
    (hr : 15 < (s.readReg x).toNat → Raises s i .keyIndex (BitVec.ofNat 16 (s.readReg x).toNat)) :
    LatchResult i s (s.skipOnKey x want (encode i)) := by
  by_cases h : 15 < (s.readReg x).toNat
  · exact .inr ⟨_, _, hr h, State.skipOnKey_of_above h want _⟩
  · have hk : (s.readReg x).toNat = (⟨(s.readReg x).toNat, by omega⟩ : Key).val := rfl
    rw [State.skipOnKey_of_key hk]
    exact .inl (skipIf_fault s _)

theorem latchResult_of_exec {i : Instr} {s t : State} (h : exec i s = .next t) : LatchResult i s t := by
  cases i
  case ret =>
    cases hs : s.stack with
    | nil => cases (exec_ret_of_nil hs).symm.trans h; exact .inr ⟨_, _, .ret hs, rfl⟩
    | cons w rest => cases (exec_ret_of_cons hs).symm.trans h; exact .inl rfl
  case call nnn =>
    by_cases hs : s.stack.length = s.params.stackDepth
    · cases (exec_call_of_full nnn hs).symm.trans h; exact .inr ⟨_, _, .call hs, rfl⟩
    · cases (exec_call_of_room nnn hs).symm.trans h; exact .inl rfl
  case ldVxK x =>
    cases hk : s.firstHeld with
    | none => cases (exec_ldVxK_of_firstHeld_none x hk).symm.trans h; exact .inl rfl
    | some k => cases (exec_ldVxK_of_firstHeld_some x hk).symm.trans h; exact .inl rfl
  case seImm | sneImm | seReg | sneReg => cases h; exact .inl (skipIf_fault s _)
  case skp => cases h; exact latchResult_skipOnKey _ .skp
  case sknp => cases h; exact latchResult_skipOnKey _ .sknp
  case ldB => cases h; exact latchResult_guardBlock .ldB rfl
  case storeRegs => cases h; exact latchResult_guardBlock .storeRegs rfl
  case loadRegs => cases h; exact latchResult_guardBlock .loadRegs (s.advance.loadBlock_fault _ _)
  case drw => cases h; exact latchResult_guardBlock .drw rfl
  all_goals cases h; exact .inl rfl

/-- An instruction that sets a clear latch raised one of its faults. -/
theorem raises_of_latched {i : Instr} {s t : State} (hv : s.fault.valid = false) (h : exec i s = .next t)
    (ht : t.fault.valid = true) : ∃ c info, Raises s i c info ∧ t = s.raise c info (encode i) := by
  refine (latchResult_of_exec h).resolve_left fun e => ?_
  rw [e, hv] at ht
  cases ht

theorem blockOk_eq_false (base len : Nat) : blockOk base len = false ↔ len ≠ 0 ∧ Config.memSize < base + len := by
  simp [blockOk]

theorem lowestBad_index_toNat (s : State) : (BitVec.ofNat 16 (lowestBad s.index)).toNat = max s.i.toNat 4095 := by
  have hi : s.i.toNat < 65536 := s.i.isLt
  exact Nat.mod_eq_of_lt (by simp only [lowestBad, State.index, Config.memSize]; omega)

/-- A cycle on a halted core (R203). -/
theorem cycle_of_halted {s : State} (h : s.fault.valid = true) : cycle s = .next s := by
  simp [cycle, h]

/-- A cycle on a word that is no instruction (R88, R103). -/
theorem cycle_of_decode_error {s : State} {w : Word} {e : DecodeReject} (hv : s.fault.valid = false)
    (hf : s.fetch = some w) (hd : decode w = .error e) : cycle s = .next s.advance := by
  simp [cycle, runWord, hv, hf, hd, execNop]

end Sys2Proof.Machine

namespace Sys2Proof.Safety

open Sys2Proof.Machine

/-- Settles O10. On a halted core a Cycle does nothing, and no other transaction but those that begin a run writes the
latch. -/
theorem haltedCoreIgnoresCycle : Obligations.HaltedCoreIgnoresCycle := by
  refine fun s hv => ⟨cycle_of_halted hv, fun tr t h ht => ?_⟩
  have hlatched (e : t.fault = s.fault) : False := by
    rw [e, hv] at ht
    cases ht
  have h := transact_of_perform h
  cases tr with
  | reset => exact .inl rfl
  | loadFailed => exact .inr (.inl rfl)
  | load rom => exact .inr (.inr ⟨rom, rfl⟩)
  | cycle => cases (cycle_of_halted hv).symm.trans h; exact (hlatched rfl).elim
  | tick => cases h; exact (hlatched (by rw [doTick_eq])).elim
  | press k | release k => cases h; exact (hlatched rfl).elim
  | fbRead x y => obtain ⟨e, rfl⟩ := emit_of_fbRead h; exact (hlatched rfl).elim

/-- Settles O11. A fault of an instruction latches the instruction's word, which is the word fetched. -/
theorem faultsArePrecise : Obligations.FaultsArePrecise := by
  intro s t hv h ht
  rcases cycle_cases s with ⟨hv', -⟩ | ⟨-, hf, e⟩ | ⟨w, i, -, hf, hd, e⟩ | ⟨w, _, -, -, -, e⟩
  · cases hv.symm.trans hv'
  · cases e.symm.trans h
    exact ⟨.fetchBounds, s.pc, by rw [hf]; rfl⟩
  · obtain ⟨c, info, -, rfl⟩ := raises_of_latched hv (e.symm.trans h) ht
    exact ⟨c, info, by rw [hf, encode_of_decode hd]; rfl⟩
  · cases e.symm.trans h
    cases hv.symm.trans ht

/-- Settles O12, fault by fault. -/
theorem faultCausesAsTabled : Obligations.FaultCausesAsTabled := by
  refine ⟨fun i s t hv h ht => ?_, fun s t hv hpc h => ?_, fun s t w e hv hf hd h => ?_⟩
  · obtain ⟨c, info, hr, rfl⟩ := raises_of_latched hv h ht
    cases hr with
    | ret hs => exact ⟨congrArg List.length hs, rfl, rfl⟩
    | call hs => exact ⟨hs, rfl, rfl⟩
    | skp hx | sknp hx => exact ⟨hx, rfl, Nat.mod_eq_of_lt (by omega)⟩
    | ldB hb | storeRegs hb | loadRegs hb =>
      obtain ⟨-, hlt⟩ := (blockOk_eq_false _ _).1 hb
      exact ⟨Nat.le_of_lt_succ hlt, rfl, lowestBad_index_toNat s⟩
    | drw hb =>
      obtain ⟨hn, hlt⟩ := (blockOk_eq_false _ _).1 hb
      exact ⟨fun e => hn (congrArg BitVec.toNat e), Nat.le_sub_one_of_lt hlt, rfl, lowestBad_index_toNat s⟩
  · cases (cycle_of_fetch_none hv (s.fetch_eq_none.2 (Nat.succ_le_succ hpc))).symm.trans h
    exact ⟨rfl, rfl, rfl⟩
  · cases (cycle_of_decode_error hv hf hd).symm.trans h
    exact hv

end Sys2Proof.Safety
end

section
/-! The host's transactions other than `Reset` and `Load` (O6, O36, O38, O44). -/

namespace Sys2Proof.Safety

open Sys2Proof.Machine

/-- Settles O6, by whether a transaction is pending. -/
theorem stepPerformsTheNextTransaction : Obligations.StepPerformsTheNextTransaction := by
  intro s
  rcases step_cases s with ⟨hp, e⟩ | ⟨tr, rest, hp, e⟩ <;> rw [hp]
  · exact ⟨fun _ => e, nofun⟩
  · exact ⟨nofun, by rintro _ _ ⟨⟩; exact e⟩

/-- Settles O36. -/
theorem tickCountsDown : Obligations.TickCountsDown := by
  intro s hs
  have hst : s.st = 0 ↔ s.st.toNat = 0 := BitVec.toNat_eq
  have hout : s.beepIfSounding.out = if s.st.toNat = 0 then s.out else .beep :: s.out :=
    (apply_ite State.out _ _ _).trans (if_congr hst rfl rfl)
  exact ⟨_, (perform_of_started hs _).trans (congrArg Host.Outcome.next (doTick_eq s)), countDown_toNat _,
    countDown_toNat _, hout, rfl⟩

/-- A write of a key flag. -/
theorem setKey_effect (s : State) (k : Key) (b : Bool) :
    (s.setKey k b).keyHeld k = b ∧ (∀ j, j ≠ k → (s.setKey k b).keyHeld j = s.keyHeld j) ∧
      s.setKey k b = { s with key := (s.setKey k b).key } :=
  ⟨(s.keyHeld_setKey k k b).trans (if_pos rfl), fun j hj => (s.keyHeld_setKey k j b).trans (if_neg hj), rfl⟩

/-- Settles O38. -/
theorem pressAndReleaseSetOneFlag : Obligations.PressAndReleaseSetOneFlag := fun k s hs =>
  ⟨⟨_, perform_of_started hs _, setKey_effect s k true⟩, ⟨_, perform_of_started hs _, setKey_effect s k false⟩⟩

/-- Settles O44, by whether the pixel is on the screen. -/
theorem fbReadGivesThePixel : Obligations.FbReadGivesThePixel := by
  intro s x y hs
  rw [perform_of_started hs]
  rcases doFbRead_cases s x y with ⟨hin, e⟩ | ⟨hout, e⟩
  · exact ⟨fun _ _ => ⟨e, s.fb.pixel_cases x y⟩, fun h => absurd hin h⟩
  · exact ⟨fun hx hy => absurd ⟨hx, hy⟩ hout, fun _ => e⟩

end Sys2Proof.Safety
end

section
/-! `Reset` and `Load` (O45, O47, O48, O50 to O52). -/

namespace Sys2Proof.Machine

/-! ## What the three transactions that begin a run do -/

theorem perform_reset (s : State) : perform .reset s = .next s.doReset := perform_of_beginsRun s rfl

theorem perform_load (s : State) (rom : List Byte) : perform (.load rom) s = .next (s.doLoad rom) :=
  perform_of_beginsRun s rfl

theorem beginsRun_iff (tr : Transaction) :
    tr.beginsRun = true ↔ tr = .reset ∨ tr = .loadFailed ∨ ∃ rom, tr = .load rom := by
  cases tr <;> simp [Transaction.beginsRun]

/-- The memory a run begins with. -/
def startMemory : Transaction → Memory
  | .load rom => Memory.writeBlock [] Config.loadBase (rom.take Config.romMax)
  | _ => []

/-- Each resets and puts its memory in place; they differ in that and in what they put out (R240 to R242). -/
theorem perform_eq_of_beginsRun {tr : Transaction} (h : tr.beginsRun = true) (s : State) :
    ∃ out, perform tr s = .next { s.doReset with mem := startMemory tr, out := out } := by
  rw [perform_of_beginsRun s h]
  rcases (beginsRun_iff tr).1 h with rfl | rfl | ⟨rom, rfl⟩ <;> exact ⟨_, rfl⟩

/-! ## Memory after a `Load` (R241) -/

/-- A byte where the image goes: the image's, 0 past its end. -/
theorem readByte_doLoad_of_lt (s : State) (rom : List Byte) {k : Nat} (hk : k < Config.romMax) :
    (s.doLoad rom).readByte (Config.loadBase + k) = rom.getD k 0 := by
  have hread := Memory.read_writeBlock [] Config.loadBase (rom.take Config.romMax) (Config.loadBase + k)
  rw [Nat.add_sub_cancel_left] at hread
  refine hread.trans ?_
  by_cases hlen : k < rom.length
  · rw [if_pos (by simp; omega), List.getD_eq_getElem?_getD, List.getElem?_take_of_lt hk,
      List.getD_eq_getElem?_getD]
  · rw [if_neg (by simp; omega), List.getD_eq_default _ _ (Nat.le_of_not_lt hlen)]
    rfl

/-- A byte before or after the image's. -/
theorem readByte_doLoad_outside (s : State) (rom : List Byte) {a : Nat}
    (ha : a < Config.loadBase ∨ Config.loadBase + min rom.length Config.romMax ≤ a) :
    (s.doLoad rom).readByte a = 0 := by
  refine (Memory.read_writeBlock [] Config.loadBase (rom.take Config.romMax) a).trans (if_neg ?_)
  rw [List.length_take]
  omega

end Sys2Proof.Machine

namespace Sys2Proof.Safety

open Sys2Proof.Machine

/-! ## The statements -/

/-- Settles O45. Registers and screen are those of the model's reset state. -/
theorem resetGivesTheResetValues : Obligations.ResetGivesTheResetValues := fun s =>
  ⟨_, perform_reset s, fun _ => rfl, readReg_reset, rfl, rfl, rfl, rfl, rfl, pixel_reset, rfl, rfl⟩

/-- Settles O47. Of the old state a reset state holds only the keys. -/
theorem resetForgetsThePreviousRun : Obligations.ResetForgetsThePreviousRun := by
  intro s s' t t' hkey _ ht ht'
  cases (perform_reset s).symm.trans ht
  cases (perform_reset s').symm.trans ht'
  exact ⟨rfl, rfl, rfl, rfl, rfl, rfl, rfl, hkey, rfl, rfl⟩

/-- Settles O48. -/
theorem nothingButResetAndLoadBeforeTheFirst : Obligations.NothingButResetAndLoadBeforeTheFirst := by
  refine fun s hs => ⟨fun tr hreset hfailed hload => ?_, fun tr htr => ?_⟩
  · rcases perform_cases tr s with ⟨-, -, e⟩ | ⟨hstarted | hbegins, -⟩
    · exact e
    · cases hs.symm.trans hstarted
    · rcases (beginsRun_iff tr).1 hbegins with e | e | ⟨rom, e⟩
      · exact absurd e hreset
      · exact absurd e hfailed
      · exact absurd e (hload rom)
  · have hbegins := (beginsRun_iff tr).2 htr
    obtain ⟨out, e⟩ := perform_eq_of_beginsRun hbegins s
    refine ⟨_, e, rfl, fun s' _ => ?_⟩
    obtain ⟨out', e'⟩ := perform_eq_of_beginsRun hbegins s'
    exact ⟨_, e', rfl, rfl, rfl, rfl, rfl, rfl, rfl, rfl, rfl⟩

/-- Settles O50. -/
theorem loadCopiesTheRom : Obligations.LoadCopiesTheRom := fun s rom =>
  ⟨_, _, perform_load s rom, perform_reset s,
    fun _ hj hmax => (readByte_doLoad_of_lt s rom hmax).trans (List.getD_eq_getElem rom 0 hj),
    fun _ ha => readByte_doLoad_outside s rom ha, rfl, rfl⟩

/-- Settles O51. -/
theorem failedLoadLeavesTheResetState : Obligations.FailedLoadLeavesTheResetState := fun s =>
  ⟨_, perform_reset s, fun _ => rfl, rfl, rfl, rfl, rfl, perform_of_beginsRun s rfl⟩

/-- Settles O52. The fetch reads the first two places of the image. -/
theorem firstFetchAfterLoad : Obligations.FirstFetchAfterLoad := by
  refine fun s rom => ⟨_, perform_load s rom, rfl, rfl, ?_⟩
  have hfetch := fetch_inside (s := s.doLoad rom) (show 0x200 + 1 < Config.memSize by decide)
  exact hfetch.trans (congrArg some (congrArg₂ _
    (readByte_doLoad_of_lt s rom (show 0 < Config.romMax by decide))
    (readByte_doLoad_of_lt s rom (show 1 < Config.romMax by decide))))

/-- Settles O54. The jump's target is PC, and a jump writes nothing else. -/
theorem jumpToSelfIsAFixedPoint : Obligations.JumpToSelfIsAFixedPoint := by
  rintro s ⟨hv, w, nnn, hf, hd, hself⟩
  have hjump : exec (.jp nnn) s = .next { s with pc := addrOperand nnn } := rfl
  rw [cycle_of_decode hv hf hd, hjump, hself]

end Sys2Proof.Safety
end

section
/-! A frame of the host (O53). -/

namespace Sys2Proof.Machine

/-- Once a run has begun a step carries out the first pending transaction. -/
theorem step_of_pending_cons {s : State} {tr : Transaction} {rest : List Transaction} (hs : s.started = true)
    (hp : s.pending = tr :: rest) : step s = transact tr { s with pending := rest } := by
  rw [step, nextTransaction, hp]
  exact perform_of_started (s := { s with pending := rest }) hs tr

/-- The transaction that sets one key as a snapshot has it. -/
def keyTransaction (keys : Vector Bool 16) (k : Key) : Transaction :=
  if keys[k.val] then .press k else .release k

theorem transact_keyTransaction (keys : Vector Bool 16) (k : Key) (s : State) :
    transact (keyTransaction keys k) s = .next (s.setKey k keys[k.val]) := by
  unfold keyTransaction
  cases keys[k.val] <;> rfl

/-- Pending key transactions set the flags of their keys and touch nothing else; by induction on the keys. -/
theorem run_keyTransactions (keys : Vector Bool 16) (n : Nat) (later : List Transaction) (ks : List Key) (s : State)
    (hs : s.started = true) (hp : s.pending = ks.map (keyTransaction keys) ++ later) :
    ∃ key : Vector Bool 16, core.run (ks.length + n) s = core.run n { s with key := key, pending := later } ∧
      ∀ j : Key, key[j.val] = if j ∈ ks then keys[j.val] else s.keyHeld j := by
  induction ks generalizing s with
  | nil =>
    have hp : s.pending = later := hp
    exact ⟨s.key, by simp [← hp], fun _ => rfl⟩
  | cons k ks ih =>
    have hstep := (step_of_pending_cons hs hp).trans (transact_keyTransaction keys k _)
    obtain ⟨key, hrun, hkey⟩ :=
      ih (State.setKey { s with pending := ks.map (keyTransaction keys) ++ later } k keys[k.val]) hs rfl
    refine ⟨key, ?_, fun j => ?_⟩
    · rw [List.length_cons, Nat.add_right_comm]
      exact (core_run_succ _ hstep).trans hrun
    · rw [hkey j, State.keyHeld_setKey]
      by_cases hj : j = k
      · subst hj; simp
      · simp [hj, State.keyHeld]

/-- Setting all sixteen keys gives the snapshot. -/
theorem run_allKeys (keys : Vector Bool 16) (n : Nat) {later : List Transaction} {s : State} (hs : s.started = true)
    (hp : s.pending = allRegs.map (keyTransaction keys) ++ later) :
    core.run (16 + n) s = core.run n { s with key := keys, pending := later } := by
  obtain ⟨key, hrun, hkey⟩ := run_keyTransactions keys n later allRegs s hs hp
  have hall : key = keys := Vector.ext fun k hk => (hkey ⟨k, hk⟩).trans (if_pos (mem_allRegs _))
  exact hall ▸ hrun

/-- A tick does not read the schedule. -/
theorem doTick_withPending (s : State) (p : List Transaction) :
    { s.doTick with pending := p } = ({ s with pending := p } : State).doTick := by
  simp only [doTick_eq, beepIfSounding_out]

/-- A run of one step is that step, when it answers a next state. -/
theorem core_run_one {s t : State} (h : step s = .next t) : core.run 1 s = .next t :=
  (core_run_succ 0 h).trans (core_run_zero t)

/-- A pending tick and the cycle after it. -/
theorem run_tick_cycle {s : State} {rest : List Transaction} (hs : s.started = true)
    (hp : s.pending = .tick :: .cycle :: rest) :
    core.run 2 s = cycle ({ s with pending := rest } : State).doTick := by
  have htick : step s = .next ({ s with pending := .cycle :: rest } : State).doTick := step_of_pending_cons hs hp
  have hcycle := step_of_pending_cons (s := ({ s with pending := .cycle :: rest } : State).doTick) (tr := .cycle)
    (rest := rest) (by rw [doTick_eq]; exact hs) (by rw [doTick_eq])
  rw [doTick_withPending] at hcycle
  obtain ⟨t, ht⟩ := cycle_total ({ s with pending := rest } : State).doTick
  exact ((core_run_succ 1 htick).trans (core_run_one (hcycle.trans ht))).trans ht.symm

end Sys2Proof.Machine

namespace Sys2Proof.Safety

open Sys2Proof.Machine

/-- Settles O53: sixteen steps for the keys, then the tick and the cycle. -/
theorem frameIsKeysTickCycle : Obligations.FrameIsKeysTickCycle := by
  intro keys s rest hs hp
  have hp : s.pending = allRegs.map (keyTransaction keys) ++ (.tick :: .cycle :: rest) := hp
  exact ⟨_, perform_of_started (s := { s with key := keys, pending := rest }) hs _,
    (run_allKeys keys 2 hs hp).trans (run_tick_cycle (s := { s with key := keys, pending := _ }) hs rfl)⟩

end Sys2Proof.Safety
end
